-- ==== Sys2Proof/Word.lean ====
section
/-!
DEFINITION. The value types that cross the block's boundary: the REAL domain as exact real terms, the
bit-vector widths of 30_encoding.md R51 and R52, the tracking states of 10_state.md R22, and the operand ports.
-/

namespace Sys2Proof

/-- One command word, numbered as a binary number (00_scope.md R12). -/
abbrev CmdWord := BitVec 16
/-- One 288-bit burst; index 0, the first bit, is the most significant bit (20_memory.md R42). -/
abbrev Burst := BitVec 288
/-- One Golay(24) word, index 0 most significant (43_golay24.md R119). -/
abbrev Word24 := BitVec 24
/-- One BPTC block, interleaved or not, index 0 most significant (45_bptc_196_96.md R143). -/
abbrev Block196 := BitVec 196

/-- REAL (00_scope.md R8, R14): an exact real number, written down as a term, so that a register that holds it is
plain data. `RealTerm.val` (Machine/RealValue.lean) gives the real number a term stands for. `atom n` is a
named real about which nothing is known: a statement for all valuations of the atoms is a statement for all reals.
The last three forms are the results of the loops and of the clamp of 40_costas_loop.md R67, R68 and R76. -/
inductive RealTerm where
  | rat (q : ℚ)
  | atom (n : Nat)
  | pi
  | add (a b : RealTerm)
  | sub (a b : RealTerm)
  | mul (a b : RealTerm)
  | div (a b : RealTerm)
  | sqrt (a : RealTerm)
  | cos (a : RealTerm)
  | sin (a : RealTerm)
  /-- `normalize_phase(p)` of R67 -/
  | normPhase (p : RealTerm)
  /-- `clamp(f, -bound, bound)` of R68 -/
  | clampFreq (bound f : RealTerm)
  /-- the wrap of R76 into `[-bound, bound]` by steps of `2*bound` -/
  | wrapFreq (bound f : RealTerm)
  deriving DecidableEq, Repr, Inhabited

/-- What a REAL operand port carries: a finite number, or one of the non-finite patterns that
70_reset_and_hazards.md R193 (a) says the model refuses. -/
inductive RealPort where
  | finite (x : RealTerm)
  | nan
  | posInf
  | negInf
  deriving DecidableEq, Repr, Inhabited

/-- The tracking states, from the widest bandwidth to the narrowest (10_state.md R22, 40_costas_loop.md R82). -/
inductive TrackingState where
  | searching
  | coarse
  | fine
  | locked
  deriving DecidableEq, Repr, Inhabited

/-- The operand ports of 30_encoding.md R51. -/
structure Ports where
  opa : RealPort := .finite (.rat 0)
  opb : RealPort := .finite (.rat 0)
  opn : BitVec 32 := 0
  burst : Burst := 0
  w24 : Word24 := 0
  v196 : Block196 := 0
  deriving DecidableEq, Repr, Inhabited

end Sys2Proof
end

