-- ==== Sys2Proof/Syntax.lean ====
section
/-!
DEFINITION. The 25 commands of the opcode map (30_encoding.md R54), one constructor a row. The operands of a command
arrive on the ports (R51); only the two immediates of R55 are part of the command itself.
-/

namespace Sys2Proof

inductive Instr where
  -- unit 0, the Costas loop
  | clReset
  | clInc
  | clAdj
  | clVec
  | clIncvec
  | clCorr
  | clSettrk (t : TrackingState)
  | clSetauto (e : Bool)
  | clStat
  -- unit 1, the sync monitor
  | pmReset
  | pmDet
  | pmLost
  | pmFerr
  | pmStat
  -- unit 2, the Hilbert FIR
  | htReset
  | htPush
  -- unit 3, the Golay(24) decoder
  | glDec
  -- unit 4, the slot-type extractor
  | stExt
  | stDec
  -- unit 5, BPTC(196,96)
  | bpExt
  | bpDeint
  | bpDec
  -- unit 6, the rate-3/4 trellis decoder
  | trDec
  -- unit 15, the block
  | blkReset
  | blkStat
  deriving DecidableEq, Repr, Inhabited

end Sys2Proof
end

