-- ==== Sys2Proof/Decode.lean ====
section
/-!
DEFINITION. Decoding (30_encoding.md R57) from the opcode map of R54, and the encoder written from the same map.
-/

namespace Sys2Proof

/-- The two-bit code of a tracking state on every port (10_state.md R22). -/
def TrackingState.code : TrackingState → BitVec 2
  | .searching => 0
  | .coarse => 1
  | .fine => 2
  | .locked => 3

/-- The tracking state of a code; all four codes are legal (10_state.md R22). -/
def TrackingState.ofCode (c : BitVec 2) : TrackingState :=
  if c = 0 then .searching else if c = 1 then .coarse else if c = 2 then .fine else .locked

/-- One row of the opcode map: a word `w` selects it when `(w AND mask) = pattern`; `make` reads the immediate. -/
structure Row where
  mnemonic : String
  pattern : CmdWord
  mask : CmdWord
  make : CmdWord → Instr

def Row.selects (r : Row) (w : CmdWord) : Bool := w &&& r.mask = r.pattern

def clRows : List Row := [
  ⟨"CL.RESET", 0x0000, 0xFFFF, fun _ => .clReset⟩,
  ⟨"CL.INC", 0x0100, 0xFFFF, fun _ => .clInc⟩,
  ⟨"CL.ADJ", 0x0200, 0xFFFF, fun _ => .clAdj⟩,
  ⟨"CL.VEC", 0x0300, 0xFFFF, fun _ => .clVec⟩,
  ⟨"CL.INCVEC", 0x0400, 0xFFFF, fun _ => .clIncvec⟩,
  ⟨"CL.CORR", 0x0500, 0xFFFF, fun _ => .clCorr⟩,
  ⟨"CL.SETTRK", 0x0600, 0xFFFC, fun w => .clSettrk (.ofCode (w.extractLsb' 0 2))⟩,
  ⟨"CL.SETAUTO", 0x0700, 0xFFFE, fun w => .clSetauto (w.getLsbD 0)⟩,
  ⟨"CL.STAT", 0x0800, 0xFFFF, fun _ => .clStat⟩]

def pmRows : List Row := [
  ⟨"PM.RESET", 0x1000, 0xFFFF, fun _ => .pmReset⟩,
  ⟨"PM.DET", 0x1100, 0xFFFF, fun _ => .pmDet⟩,
  ⟨"PM.LOST", 0x1200, 0xFFFF, fun _ => .pmLost⟩,
  ⟨"PM.FERR", 0x1300, 0xFFFF, fun _ => .pmFerr⟩,
  ⟨"PM.STAT", 0x1400, 0xFFFF, fun _ => .pmStat⟩]

def fecRows : List Row := [
  ⟨"HT.RESET", 0x2000, 0xFFFF, fun _ => .htReset⟩,
  ⟨"HT.PUSH", 0x2100, 0xFFFF, fun _ => .htPush⟩,
  ⟨"GL.DEC", 0x3000, 0xFFFF, fun _ => .glDec⟩,
  ⟨"ST.EXT", 0x4000, 0xFFFF, fun _ => .stExt⟩,
  ⟨"ST.DEC", 0x4100, 0xFFFF, fun _ => .stDec⟩,
  ⟨"BP.EXT", 0x5000, 0xFFFF, fun _ => .bpExt⟩,
  ⟨"BP.DEINT", 0x5100, 0xFFFF, fun _ => .bpDeint⟩,
  ⟨"BP.DEC", 0x5200, 0xFFFF, fun _ => .bpDec⟩,
  ⟨"TR.DEC", 0x6000, 0xFFFF, fun _ => .trDec⟩]

def blkRows : List Row := [
  ⟨"BLK.RESET", 0xF000, 0xFFFF, fun _ => .blkReset⟩,
  ⟨"BLK.STAT", 0xF100, 0xFFFF, fun _ => .blkStat⟩]

/-- The complete opcode map (30_encoding.md R54). -/
def opcodeMap : List Row := clRows ++ (pmRows ++ (fecRows ++ blkRows))

/-- R57: the instruction of the row the word selects; `none` where it selects no row (R58), which the step rejects. -/
def decode (w : CmdWord) : Option Instr :=
  (opcodeMap.find? (·.selects w)).map (·.make w)

/-- The command word of an instruction (R50, R53, R54, R55). -/
def encode : Instr → CmdWord
  | .clReset => 0x0000
  | .clInc => 0x0100
  | .clAdj => 0x0200
  | .clVec => 0x0300
  | .clIncvec => 0x0400
  | .clCorr => 0x0500
  | .clSettrk t => 0x0600 ||| t.code.zeroExtend 16
  | .clSetauto e => 0x0700 ||| (BitVec.ofBool e).zeroExtend 16
  | .clStat => 0x0800
  | .pmReset => 0x1000
  | .pmDet => 0x1100
  | .pmLost => 0x1200
  | .pmFerr => 0x1300
  | .pmStat => 0x1400
  | .htReset => 0x2000
  | .htPush => 0x2100
  | .glDec => 0x3000
  | .stExt => 0x4000
  | .stDec => 0x4100
  | .bpExt => 0x5000
  | .bpDeint => 0x5100
  | .bpDec => 0x5200
  | .trDec => 0x6000
  | .blkReset => 0xF000
  | .blkStat => 0xF100

/-- The mnemonic of an instruction as the opcode map spells it. -/
def Instr.mnemonic : Instr → String
  | .clReset => "CL.RESET"
  | .clInc => "CL.INC"
  | .clAdj => "CL.ADJ"
  | .clVec => "CL.VEC"
  | .clIncvec => "CL.INCVEC"
  | .clCorr => "CL.CORR"
  | .clSettrk _ => "CL.SETTRK"
  | .clSetauto _ => "CL.SETAUTO"
  | .clStat => "CL.STAT"
  | .pmReset => "PM.RESET"
  | .pmDet => "PM.DET"
  | .pmLost => "PM.LOST"
  | .pmFerr => "PM.FERR"
  | .pmStat => "PM.STAT"
  | .htReset => "HT.RESET"
  | .htPush => "HT.PUSH"
  | .glDec => "GL.DEC"
  | .stExt => "ST.EXT"
  | .stDec => "ST.DEC"
  | .bpExt => "BP.EXT"
  | .bpDeint => "BP.DEINT"
  | .bpDec => "BP.DEC"
  | .trDec => "TR.DEC"
  | .blkReset => "BLK.RESET"
  | .blkStat => "BLK.STAT"

/-- The host's reading of one table word: every command is one 16-bit word (R59), so a number of more than 16 bits
is no command. -/
def decodeTableWord (nbits w : Nat) : Option Instr :=
  if w < 2 ^ nbits ∧ w < 2 ^ 16 then decode (BitVec.ofNat 16 w) else none

end Sys2Proof
end

