-- ==== Sys2Proof/Machine/Bits.lean ====
section
/-!
DEFINITION. Bit vectors in the notation of 00_scope.md R11: index 0 is the first bit and the most significant one.
-/

namespace Sys2Proof.Machine

/-- `v[i]` (R11). -/
def bit {n : Nat} (v : BitVec n) (i : Nat) : Bool := v.getMsbD i

/-- The vector of length `n` whose element `i` is `f i`. -/
def ofBits : (n : Nat) → (Nat → Bool) → BitVec n
  | 0, _ => 0#0
  | n + 1, f => (ofBits n f).concat (f n)

/-- `v[a..a+len-1]` (R11), whose value as a number is `uint(v[a..a+len-1])`. -/
def slice {n : Nat} (v : BitVec n) (a len : Nat) : BitVec len := ofBits len fun i => bit v (a + i)

/-- The elements of `v` in order. -/
def bitsOf {n : Nat} (v : BitVec n) : List Bool := (List.range n).map (bit v)

/-- `wt(v)`: the number of ones (R11). -/
def wt {n : Nat} (v : BitVec n) : Nat := (bitsOf v).count true

/-- The vector whose only one is at index `i`. -/
def unitBit (n i : Nat) : BitVec n := ofBits n fun j => j == i

/-- `v` with element `i` inverted. -/
def flipBit {n : Nat} (v : BitVec n) (i : Nat) : BitVec n := v ^^^ unitBit n i

/-- The vector with ones exactly at the listed indices, each taken once: `zero flip i, j, ...` of 30_encoding.md R60. -/
def onesAt (n : Nat) (is : List Nat) : BitVec n := ofBits n fun j => is.contains j

/-- A row vector times a matrix over GF(2): the sum of the rows whose bit is one (43_golay24.md R119). -/
def gf2Mul {m : Nat} : List (BitVec m) → List Bool → BitVec m
  | row :: rows, b :: bs => (if b then row else 0) ^^^ gf2Mul rows bs
  | _, _ => 0

end Sys2Proof.Machine
end

