-- ==== Sys2Proof/Config.lean ====
section
/-!
DEFINITION. The implementation parameters of 00_scope.md R8, the constants that the OPEN ones are made of at reset,
and the free value of the automatic tracking path. An opaque constant has no body: nothing can be proved of its value.
-/

namespace Sys2Proof

/-- The parameters of one instance (00_scope.md R8): fixed before reset, never changed while the instance runs. -/
structure Params where
  /-- SYMBOL_RATE -/
  symbolRate : RealTerm
  /-- SAMPLE_RATE -/
  sampleRate : RealTerm
  /-- LOOP_BW[SEARCHING] -/
  bwSearching : RealTerm
  /-- LOOP_BW[COARSE] -/
  bwCoarse : RealTerm
  /-- LOOP_BW[FINE] -/
  bwFine : RealTerm
  /-- LOOP_BW[LOCKED] -/
  bwLocked : RealTerm
  /-- MAX_SYNC_COUNT, at most 65535 (10_state.md R25) -/
  maxSyncCount : BitVec 16
  /-- SYNC_LEVEL[0], SYNC_LEVEL[1], ... in order -/
  syncLevel : List TrackingState
  /-- SYNC_REPORT_THRESHOLD -/
  syncReportThreshold : Nat
  /-- HALFBAND_47[0..46] -/
  halfband47 : Vector RealTerm 47
  /-- GOLAY24_P, one entry a row; column 0 is the most significant bit -/
  golay24P : Vector (BitVec 12) 12
  /-- GOLAY_RADIUS -/
  golayRadius : Nat
  /-- SLOT_TYPE_INDEX[0..19] -/
  slotTypeIndex : Vector (Fin 288) 20
  /-- BPTC_INTERLEAVE(0..195) -/
  bptcInterleave : Vector (Fin 196) 196
  /-- HAMMING15_P, one entry a row -/
  hamming15P : Vector (BitVec 4) 11
  /-- HAMMING13_P, one entry a row -/
  hamming13P : Vector (BitVec 4) 9
  /-- BPTC_MAX_PASSES -/
  bptcMaxPasses : Nat
  /-- TRELLIS_INTERLEAVE(0..97) -/
  trellisInterleave : Vector (Fin 98) 98
  /-- TRELLIS_POINT, held as its inverse PT(0..15) (46_trellis_3_4.md R164; DEDUCED, log 13) -/
  trellisPT : Vector (BitVec 4) 16
  /-- TRELLIS_ENC[s][t] -/
  trellisEnc : Vector (Vector (Fin 16) 8) 8
  /-- VITERBI_FAIL_METRIC; `none` is infinity -/
  viterbiFailMetric : Option Nat
  deriving DecidableEq, Repr, Inhabited

namespace Config

/-! The OPEN parameters of the instance that `State.reset` describes (log 2). Where 00_scope.md R8, 42_hilbert_fir.md
R103 or 45_bptc_196_96.md R148, R149 constrain a parameter, the constant is the free part of it, and
Machine/Defaults.lean builds the parameter from that part. -/

/-- The free part of SYMBOL_RATE. -/
opaque symbolRate : RealTerm
/-- The free part of SAMPLE_RATE. -/
opaque sampleRate : RealTerm
/-- The free part of LOOP_BW[LOCKED]. -/
opaque bwLocked : RealTerm
/-- How far LOOP_BW[FINE] lies above LOOP_BW[LOCKED], up to its sign. -/
opaque bwFine : RealTerm
/-- How far LOOP_BW[COARSE] lies above LOOP_BW[FINE], up to its sign. -/
opaque bwCoarse : RealTerm
/-- How far LOOP_BW[SEARCHING] lies above LOOP_BW[COARSE], up to its sign. -/
opaque bwSearching : RealTerm
/-- MAX_SYNC_COUNT -/
opaque maxSyncCount : BitVec 16
/-- `syncLevelAbove c` is SYNC_LEVEL[c + 1]. -/
opaque syncLevelAbove : Nat → TrackingState
/-- SYNC_REPORT_THRESHOLD -/
opaque syncReportThreshold : Nat
/-- HALFBAND_47[0..23]: the first half and the centre. -/
opaque halfbandHalf : Vector RealTerm 24
/-- GOLAY24_P; its requirement, 43_golay24.md R120, is a hypothesis where a statement needs it. -/
opaque golay24P : Vector (BitVec 12) 12
/-- In which order the rows of HAMMING15_P take the eleven values they may have. -/
opaque hamming15Order : Equiv.Perm (Fin 11)
/-- In which order the rows of HAMMING13_P take nine of the eleven values they may have. -/
opaque hamming13Order : Equiv.Perm (Fin 11)
/-- VITERBI_FAIL_METRIC -/
opaque viterbiFailMetric : Option Nat

/-- The n-th tracking state drawn by the automatic path, "any of the four states, under no law"
(40_costas_loop.md R83): a free value (log 7). -/
opaque autoDraw : Nat → TrackingState

end Config

end Sys2Proof
end

