-- ==== Sys2Proof/Machine/Defaults.lean ====
section
/-!
DEFINITION. The default tables of 00_scope.md R8 and the parameters of the instance that `State.reset` describes: the
defaults where the spec gives one (log 3), what the opaque constants of Config leave free where it says OPEN (log 2). Each value R8 allows of a REAL parameter,
of SYNC_LEVEL, of the symmetric prototype and of the two Hamming matrices is one of those that can be built here, and
none that it excludes is.
-/

namespace Sys2Proof.Machine

/-- Burst bits 122 to 131, then 180 to 189 (44_slot_type.md R132). -/
def defaultSlotTypeIndex : Vector (Fin 288) 20 :=
  #v[122, 123, 124, 125, 126, 127, 128, 129, 130, 131, 180, 181, 182, 183, 184, 185, 186, 187, 188, 189]

/-- `(i * 181) mod 196` (45_bptc_196_96.md R145). -/
def defaultBptcInterleave : Vector (Fin 196) 196 :=
  ⟨((List.range 196).map fun i => ⟨i * 181 % 196, Nat.mod_lt _ (by decide)⟩).toArray, by simp⟩

/-- The four lines of the table of 46_trellis_3_4.md R167. -/
def trellisInterleaveLine (start len : Nat) : List Nat :=
  (List.range len).map fun k => 8 * (k / 2) + start + k % 2

/-- TRELLIS_INTERLEAVE(0..97) (46_trellis_3_4.md R167): the table's lines, of 26, 24, 24 and 24 entries, go up by
pairs of positions 8 apart. -/
def defaultTrellisInterleaveList : List Nat :=
  trellisInterleaveLine 0 26 ++ (trellisInterleaveLine 2 24 ++ (trellisInterleaveLine 4 24 ++ trellisInterleaveLine 6 24))

def defaultTrellisInterleave : Vector (Fin 98) 98 :=
  ⟨(defaultTrellisInterleaveList.map fun n => (⟨n % 98, Nat.mod_lt _ (by decide)⟩ : Fin 98)).toArray,
    by simp [defaultTrellisInterleaveList, trellisInterleaveLine]⟩

/-- PT(0..15) (46_trellis_3_4.md R168). -/
def defaultTrellisPT : Vector (BitVec 4) 16 :=
  #v[0b0010, 0b1010, 0b0111, 0b1111, 0b1110, 0b0110, 0b1011, 0b0011,
     0b1101, 0b0101, 0b1000, 0b0000, 0b0001, 0b1001, 0b0100, 0b1100]

/-- TRELLIS_ENC[s][t] (46_trellis_3_4.md R169), row s the state. -/
def defaultTrellisEnc : Vector (Vector (Fin 16) 8) 8 :=
  #v[#v[0, 8, 4, 12, 2, 10, 6, 14],
     #v[4, 12, 2, 10, 6, 14, 0, 8],
     #v[1, 9, 5, 13, 3, 11, 7, 15],
     #v[5, 13, 3, 11, 7, 15, 1, 9],
     #v[3, 11, 7, 15, 1, 9, 5, 13],
     #v[7, 15, 1, 9, 5, 13, 3, 11],
     #v[2, 10, 6, 14, 0, 8, 4, 12],
     #v[6, 14, 0, 8, 4, 12, 2, 10]]

/-- `x + sqrt(x*x + 1)`: a positive real, and any positive real for some `x`. -/
def positiveTerm (x : RealTerm) : RealTerm := .add x (.sqrt (.add (.mul x x) (.rat 1)))

/-- `low + sqrt(x*x)`: a real not below `low`, and any such real for some `x`. -/
def raisedTerm (low x : RealTerm) : RealTerm := .add low (.sqrt (.mul x x))

/-- LOOP_BW of the boot instance, from the narrowest state up (R8). -/
def bootBwLocked : RealTerm := positiveTerm Config.bwLocked
def bootBwFine : RealTerm := raisedTerm bootBwLocked Config.bwFine
def bootBwCoarse : RealTerm := raisedTerm bootBwFine Config.bwCoarse
def bootBwSearching : RealTerm := raisedTerm bootBwCoarse Config.bwSearching

/-- A SYNC_LEVEL table over 0..n whose entry 0 is SEARCHING (R8, 41_sync_monitor.md R92). -/
def syncTable (n : Nat) (above : Nat → TrackingState) : List TrackingState := .searching :: (List.range n).map above

/-- The symmetric prototype whose taps 0 to 23 are given (42_hilbert_fir.md R103). -/
def symmetricTaps (half : Vector RealTerm 24) : Vector RealTerm 47 :=
  Vector.ofFn fun n => half[min n.val (46 - n.val)]

/-- The eleven 4-bit values with two ones or more: the rows a Hamming parity matrix may have beside the unit columns
of the parity-check matrix (45_bptc_196_96.md R148, R149). -/
def hammingValues : Vector (BitVec 4) 11 := #v[3, 5, 6, 7, 9, 10, 11, 12, 13, 14, 15]

/-- The first `n` rows of a Hamming parity matrix, its values taken in the given order. -/
def hammingRows (order : Equiv.Perm (Fin 11)) (n : Nat) (h : n ≤ 11) : Vector (BitVec 4) n :=
  Vector.ofFn fun i => hammingValues[order (i.castLE h)]

/-- The parameters of the instance that `State.reset` describes. -/
def bootParams : Params where
  symbolRate := positiveTerm Config.symbolRate
  sampleRate := positiveTerm Config.sampleRate
  bwSearching := bootBwSearching
  bwCoarse := bootBwCoarse
  bwFine := bootBwFine
  bwLocked := bootBwLocked
  maxSyncCount := Config.maxSyncCount
  syncLevel := syncTable Config.maxSyncCount.toNat Config.syncLevelAbove
  syncReportThreshold := Config.syncReportThreshold
  halfband47 := symmetricTaps Config.halfbandHalf
  golay24P := Config.golay24P
  golayRadius := 1
  slotTypeIndex := defaultSlotTypeIndex
  bptcInterleave := defaultBptcInterleave
  hamming15P := hammingRows Config.hamming15Order 11 (by decide)
  hamming13P := hammingRows Config.hamming13Order 9 (by decide)
  bptcMaxPasses := 5
  trellisInterleave := defaultTrellisInterleave
  trellisPT := defaultTrellisPT
  trellisEnc := defaultTrellisEnc
  viterbiFailMetric := Config.viterbiFailMetric

end Sys2Proof.Machine
end

