-- ==== Sys2Proof/Machine/RealNum.lean ====
section
/-!
DEFINITION. Arithmetic on REAL terms (00_scope.md R14): the exact operation, folded where both operands are rational
numbers written out, so that data made of numbers stays made of numbers. The constants of 00_scope.md R9, the gains of
40_costas_loop.md R66 and the coefficients of 42_hilbert_fir.md R104.
-/

namespace Sys2Proof.Machine

def rAdd : RealTerm → RealTerm → RealTerm
  | .rat a, .rat b => .rat (a + b)
  | a, b => .add a b

def rSub : RealTerm → RealTerm → RealTerm
  | .rat a, .rat b => .rat (a - b)
  | a, b => .sub a b

def rMul : RealTerm → RealTerm → RealTerm
  | .rat a, .rat b => .rat (a * b)
  | a, b => .mul a b

def rDiv : RealTerm → RealTerm → RealTerm
  | .rat a, .rat b => .rat (a / b)
  | a, b => .div a b

/-- The sum of a list of REALs. -/
def rSum : List RealTerm → RealTerm
  | [] => .rat 0
  | x :: xs => rAdd x (rSum xs)

/-- `DAMPING = sqrt(2)/2` (00_scope.md R9). -/
def damping : RealTerm := .div (.sqrt (.rat 2)) (.rat 2)

/-- `MAX_FREQ = 2*pi*(SYMBOL_RATE/2)/SAMPLE_RATE` (00_scope.md R9). -/
def maxFreq (p : Params) : RealTerm :=
  rDiv (rMul (rMul (.rat 2) .pi) (rDiv p.symbolRate (.rat 2))) p.sampleRate

/-- `LOOP_BW[s]` (00_scope.md R8). -/
def loopBw (p : Params) : TrackingState → RealTerm
  | .searching => p.bwSearching
  | .coarse => p.bwCoarse
  | .fine => p.bwFine
  | .locked => p.bwLocked

/-- `den(B)` (40_costas_loop.md R66). -/
def gainDen (b : RealTerm) : RealTerm :=
  rAdd (rAdd (.rat 1) (rMul (rMul (.rat 2) damping) b)) (rMul b b)

/-- `alpha_of(B)` (40_costas_loop.md R66). -/
def alphaOf (b : RealTerm) : RealTerm := rDiv (rMul (rMul (.rat 4) damping) b) (gainDen b)

/-- `beta_of(B)` (40_costas_loop.md R66). -/
def betaOf (b : RealTerm) : RealTerm := rDiv (rMul (rMul (.rat 4) b) b) (gainDen b)

/-- `HALFBAND_47[n]` (42_hilbert_fir.md R103). -/
def halfband (p : Params) (n : Nat) : RealTerm := p.halfband47.toList.getD n (.rat 0)

/-- `HT.QC[k]` (42_hilbert_fir.md R104). -/
def quadCoeff (p : Params) (k : Nat) : RealTerm :=
  rMul (rMul (.rat 2) (halfband p (2 * k))) (.rat (if 2 * k < 23 then -1 else 1))

/-- `level_of(c)` (41_sync_monitor.md R92). A count the table does not cover cannot arise for a table of the length
00_scope.md R8 gives it; what is read there is the model's choice (DESIGN CHOICE, log 10). -/
def levelOf (p : Params) (c : BitVec 16) : TrackingState := p.syncLevel.getD c.toNat .searching

end Sys2Proof.Machine
end

