-- ==== Sys2Proof/Machine/State.lean ====
section
/-!
DEFINITION. The state of one instance (10_state.md R36), its interface to the host, and the state after reset.
-/

namespace Sys2Proof.Machine

/-- The Costas loop registers (10_state.md R20 to R24). -/
structure CostasLoop where
  phase : RealTerm
  freq : RealTerm
  trk : TrackingState
  alpha : RealTerm
  beta : RealTerm
  auto : Bool
  deriving DecidableEq, Repr

/-- The sync monitor registers (10_state.md R25, R26). -/
structure SyncMonitor where
  count : BitVec 16
  level : TrackingState
  deriving DecidableEq, Repr

/-- The Hilbert transform registers: the delay line, newest sample first, and the polarity (10_state.md R27, R28). -/
structure Hilbert where
  x : Vector RealTerm 47
  sign : Bool
  deriving DecidableEq, Repr

/-- The error registers (10_state.md R34). -/
structure ErrorRegs where
  flag : Bool
  cause : BitVec 4
  cmd : CmdWord
  deriving DecidableEq, Repr

/-- The response of one command (30_encoding.md R52): a field the command's rule does not set is 0. -/
structure Response where
  status : Bool := false
  ra : RealTerm := .rat 0
  rb : RealTerm := .rat 0
  rc : RealTerm := .rat 0
  rd : RealTerm := .rat 0
  rn : BitVec 16 := 0
  rtrk : BitVec 2 := 0
  rflag : Bool := false
  rcause : BitVec 4 := 0
  rcmd : CmdWord := 0
  rw24 : Word24 := 0
  rfec : BitVec 2 := 0
  rcc : BitVec 4 := 0
  rdt : BitVec 5 := 0
  rcorr : Bool := false
  rvalid : Bool := false
  rcount : BitVec 16 := 0
  rv196 : Block196 := 0
  rp96 : BitVec 96 := 0
  rp144 : BitVec 144 := 0
  deriving DecidableEq, Repr, Inhabited

/-- One input of the host: a command word with its operands (30_encoding.md R49), or the reset input asserted
(70_reset_and_hazards.md R191). -/
inductive HostInput where
  | command (word : CmdWord) (ports : Ports)
  | resetInput
  deriving DecidableEq, Repr

/-- One instance of the block. `params` are the constants of the instance (00_scope.md R8); `cl`, `pm`, `ht` and `err`
are the registers of 10_state.md R36; `ports` are the operand ports as the host last drove them and `resp` is the
response of the latest command (log 5, log 6). `pending` is the host's input not yet taken, oldest first (log 4), and
`draws` counts the free values the automatic path has used (log 7): these two are the model's own. -/
structure State where
  params : Params
  cl : CostasLoop
  pm : SyncMonitor
  ht : Hilbert
  err : ErrorRegs
  ports : Ports
  resp : Option Response
  pending : List HostInput
  draws : Nat
  deriving DecidableEq, Repr

/-- No command of this block stops with a fault: a bad command word is the reject, a next state (60_exceptions.md
R174), and an FEC failure is a result (60_exceptions.md R182). Nobody raises one. -/
inductive Fault
  deriving DecidableEq, Repr

/-- Why the model gives a step no meaning. -/
inductive Refusal where
  /-- an arm of `exec` that has no meaning yet; no arm raises it; safe -/
  | notModelled (mnemonic : String)
  /-- a command that reads a REAL port carrying a NaN or an infinity, "A model refuses a command with a NaN or
  infinite operand" (70_reset_and_hazards.md R193 (a)); raised by CL.ADJ, CL.CORR, PM.FERR and HT.PUSH; safe -/
  | nonFiniteOperand
  /-- `ht.filter` of an odd block, "The spec refuses an odd N at the host boundary" (42_hilbert_fir.md R109); raised
  by the pseudo-command, never by a step; safe -/
  | oddFilterBlock
  deriving DecidableEq, Repr

/-- What one command answers. -/
abbrev Result := Host.Outcome State Fault Refusal

/-- The state after reset of an instance with parameters `p` (10_state.md R36, 70_reset_and_hazards.md R197). -/
def State.initial (p : Params) : State where
  params := p
  cl := {
    phase := .rat 0
    freq := .rat 0
    trk := .searching
    alpha := alphaOf (loopBw p .searching)
    beta := betaOf (loopBw p .searching)
    auto := false }
  pm := { count := 0, level := .searching }
  ht := { x := Vector.replicate 47 (.rat 0), sign := false }
  err := { flag := false, cause := 0, cmd := 0 }
  ports := {}
  resp := none
  pending := []
  draws := 0

/-- The machine right after reset, with the parameters of the boot instance. -/
def State.reset : State := State.initial bootParams

end Sys2Proof.Machine
end

