-- ==== Sys2Proof/Machine/Ops.lean ====
section
/-!
DEFINITION. The operations the commands share: taking the host's next input, the response, the reject (the block's
one exception), set_tracking and apply_level, the automatic path, and the three resets.
-/

namespace Sys2Proof.Machine

/-- The command ends with response `r` (30_encoding.md R49). -/
def State.respond (r : Response) (s : State) : State := { s with resp := some r }

/-- Taking a command: its operands stand on the ports, the inputs after it stay pending. -/
def State.present (ports : Ports) (rest : List HostInput) (s : State) : State :=
  { s with ports := ports, pending := rest }

/-- `raise IllegalCommand(cmd)` (60_exceptions.md R174): the response is STATUS = 1 with every other field 0, the
error registers record the word with cause ILLEGAL_COMMAND = 1, and nothing else changes. -/
def reject (cmd : CmdWord) (s : State) : State :=
  { s with
    err := { flag := true, cause := 1, cmd := cmd }
    resp := some { status := true } }

/-- `set_tracking(t)` (40_costas_loop.md R71). -/
def setTracking (t : TrackingState) (s : State) : State :=
  { s with cl := { s.cl with
      trk := t
      alpha := alphaOf (loopBw s.params t)
      beta := betaOf (loopBw s.params t) } }

/-- `auto_track()` where CL.AUTO is 1 (40_costas_loop.md R83): the tracking state drawn is a free value (log 7). -/
def autoTrack (s : State) : State :=
  if s.cl.auto then setTracking (Config.autoDraw s.draws) { s with draws := s.draws + 1 } else s

/-- `apply_level(l)` (41_sync_monitor.md R96). -/
def applyLevel (l : TrackingState) (s : State) : State :=
  if l = s.pm.level then s else setTracking l { s with pm := { s.pm with level := l } }

/-- `clamp(x, lo, hi)` on integers (00_scope.md R14). -/
def clampInt (x lo hi : Int) : Int := if x < lo then lo else if hi < x then hi else x

/-- `count_update(c, d)` (41_sync_monitor.md R91): computed in unbounded integers, then clamped. -/
def countUpdate (p : Params) (c : BitVec 16) (d : Int) : BitVec 16 :=
  BitVec.ofInt 16 (clampInt (c.toNat + d) 0 p.maxSyncCount.toNat)

/-- The counter moves by `d` and the level it maps to is applied (41_sync_monitor.md R98, R99). -/
def countEvent (d : Int) (s : State) : State :=
  let c := countUpdate s.params s.pm.count d
  applyLevel (levelOf s.params c) { s with pm := { s.pm with count := c } }

/-- The effect of CL.RESET (40_costas_loop.md R70). -/
def loopReset (s : State) : State :=
  setTracking .searching { s with cl := { s.cl with phase := .rat 0, freq := .rat 0, auto := false } }

/-- The effect of PM.RESET (41_sync_monitor.md R97). -/
def monitorReset (s : State) : State :=
  setTracking .searching { s with pm := { count := 0, level := .searching } }

/-- The effect of HT.RESET (42_hilbert_fir.md R105). -/
def hilbertReset (s : State) : State :=
  { s with ht := { x := Vector.replicate 47 (.rat 0), sign := false } }

/-- The effect of BLK.RESET and of the reset input on the registers (70_reset_and_hazards.md R191). -/
def blockReset (s : State) : State :=
  hilbertReset (monitorReset (loopReset { s with err := { flag := false, cause := 0, cmd := 0 } }))

/-- The reset input (70_reset_and_hazards.md R191): the registers as by BLK.RESET. It is no command, so it returns no
response, and none is held after it (DESIGN CHOICE, log 8). -/
def takeResetInput (rest : List HostInput) (s : State) : State :=
  blockReset { s with pending := rest, resp := none }

/-- `w` presented as the next command word. Where the host's next input is a command, `w` takes the place of its word
and its operands stay; otherwise `w` comes before what is pending, with every operand 0 (log 4). -/
def presentWord (w : CmdWord) (s : State) : State :=
  match s.pending with
  | .command _ ports :: rest => { s with pending := .command w ports :: rest }
  | .resetInput :: rest => { s with pending := .command w {} :: .resetInput :: rest }
  | [] => { s with pending := [.command w {}] }

end Sys2Proof.Machine
end

