-- ==== Sys2Proof/Machine/Operands.lean ====
section
/-!
DEFINITION. Operand decoding (30_encoding.md R56): the REAL ports with the refusal of a non-finite operand, and the
bits the commands take from the BURST and V196 ports.
-/

namespace Sys2Proof.Machine

/-- The REAL on a port, or the refusal of 70_reset_and_hazards.md R193 (a). -/
def withReal (port : RealPort) (k : RealTerm → Result) : Result :=
  match port with
  | .finite x => k x
  | .nan => .refused .nonFiniteOperand
  | .posInf => .refused .nonFiniteOperand
  | .negInf => .refused .nonFiniteOperand

/-- `bptc_extract(B) = B[24..121] ++ B[190..287]` (45_bptc_196_96.md R143). -/
def bptcExtract (b : Burst) : Block196 :=
  ofBits 196 fun p => if p < 98 then bit b (24 + p) else bit b (190 + (p - 98))

/-- `deinterleave(V)[i] = V[BPTC_INTERLEAVE(i)]` (45_bptc_196_96.md R145). -/
def deinterleave (p : Params) (v : Block196) : Block196 :=
  ofBits 196 fun i => bit v (p.bptcInterleave.toList.getD i 0).val

/-- `slot_buffer(B)`: four zero pad bits, then the 20 slot-type bits (44_slot_type.md R133). -/
def slotBuffer (p : Params) (b : Burst) : Word24 :=
  ofBits 24 fun i => if i < 4 then false else bit b (p.slotTypeIndex.toList.getD (i - 4) 0).val

end Sys2Proof.Machine
end

