-- ==== Sys2Proof/Machine/Block.lean ====
section
/-!
DEFINITION. The block-level commands (70_reset_and_hazards.md R191, 60_exceptions.md R176).
-/

namespace Sys2Proof.Machine

/-- BLK.RESET (70_reset_and_hazards.md R191). -/
def execBlkReset (s : State) : Result := .next ((blockReset s).respond {})

/-- BLK.STAT (60_exceptions.md R176). -/
def execBlkStat (s : State) : Result :=
  .next (s.respond { rflag := s.err.flag, rcause := s.err.cause, rcmd := s.err.cmd })

end Sys2Proof.Machine
end

