-- ==== Sys2Proof/Machine/Flags.lean ====
section
/-!
DEFINITION. Status computations. The block has no flags register (10_state.md R35): every status is a field of the
response, and the rules for those fields are here.
-/

namespace Sys2Proof.Machine

/-- The Golay status codes on `RFEC` (43_golay24.md R123). -/
def fecClean : BitVec 2 := 0
def fecCorrected : BitVec 2 := 1
def fecUncorrectable : BitVec 2 := 2

/-- A slot type is valid exactly when the Golay status is 0 or 1 (44_slot_type.md R137). -/
def fecValid (fec : BitVec 2) : Bool := fec.toNat ≤ 1

/-- The data type reported for an invalid slot type, UNKNOWN (44_slot_type.md R135). -/
def dataTypeUnknown : BitVec 5 := 16

/-- `sext_16(count)`: a count on the 16-bit two's complement port (30_encoding.md R64). -/
def sext16 (count : Int) : BitVec 16 := BitVec.ofInt 16 count

/-- RVALID of a block decoder: 1 exactly when the count is not negative (45_bptc_196_96.md R152, R154). -/
def countValid (count : Int) : Bool := 0 ≤ count

end Sys2Proof.Machine
end

