-- ==== Sys2Proof/Machine/Bptc.lean ====
section
/-!
DEFINITION. The BPTC(196,96) deinterleaver and decoder (45_bptc_196_96.md). The matrix of R147 is not a second copy of
the block: `M[r][c]` is bit `1 + 15*r + c` of the de-interleaved vector.
-/

namespace Sys2Proof.Machine

/-- The place of `M[r][c]` in the de-interleaved vector (R147). -/
def cell (r c : Nat) : Nat := 1 + 15 * r + c

/-- Row `r` of the matrix. -/
def rowOf (d : Block196) (r : Nat) : BitVec 15 := ofBits 15 fun c => bit d (cell r c)

/-- Column `c` of the matrix. -/
def colOf (d : Block196) (c : Nat) : BitVec 13 := ofBits 13 fun r => bit d (cell r c)

/-- The syndrome of a line of the row code: its 11 bits times HAMMING15_P, plus its 4 parity bits (R148). -/
def syndrome15 (p : Params) (l : BitVec 15) : BitVec 4 :=
  gf2Mul p.hamming15P.toList (bitsOf (slice l 0 11)) ^^^ slice l 11 4

/-- The syndrome of a line of the column code: its 9 bits times HAMMING13_P, plus its 4 parity bits (R149). -/
def syndrome13 (p : Params) (l : BitVec 13) : BitVec 4 :=
  gf2Mul p.hamming13P.toList (bitsOf (slice l 0 9)) ^^^ slice l 9 4

/-- The position of a row whose syndrome is `s`, if there is one (R150). R148 makes it unique; for a matrix against
R148 it is the lowest (DESIGN CHOICE, log 18). -/
def rowPosition (p : Params) (s : BitVec 4) : Option Nat :=
  (List.range 15).find? fun j => syndrome15 p (unitBit 15 j) = s

/-- The position of a column whose syndrome is `s`, if there is one (R150). R149 makes it unique; for a matrix against
R149 it is the lowest (DESIGN CHOICE, log 18). -/
def colPosition (p : Params) (s : BitVec 4) : Option Nat :=
  (List.range 13).find? fun i => syndrome13 p (unitBit 13 i) = s

/-- `row_fix(r)` (R150). -/
def rowFix (p : Params) (d : Block196) (r : Nat) : Block196 :=
  let s := syndrome15 p (rowOf d r)
  if s = 0 then d
  else match rowPosition p s with
    | some j => flipBit d (cell r j)
    | none => d

/-- `col_fix(c)` (R150). -/
def colFix (p : Params) (d : Block196) (c : Nat) : Block196 :=
  let s := syndrome13 p (colOf d c)
  if s = 0 then d
  else match colPosition p s with
    | some i => flipBit d (cell i c)
    | none => d

/-- Every row and column syndrome is 0. -/
def bptcClean (p : Params) (d : Block196) : Bool :=
  (List.range 13).all (fun r => syndrome15 p (rowOf d r) = 0) && (List.range 15).all (fun c => syndrome13 p (colOf d c) = 0)

/-- One pass: the rows first, then the columns (R151). -/
def bptcPass (p : Params) (d : Block196) : Block196 :=
  (List.range 15).foldl (colFix p) ((List.range 13).foldl (rowFix p) d)

/-- At most `n` passes, stopping when every syndrome is 0 (R151). -/
def bptcPasses (p : Params) : Nat → Block196 → Block196
  | 0, d => d
  | n + 1, d => if bptcClean p d then d else bptcPasses p n (bptcPass p d)

/-- `bptc_repair(D_in)` (R151): the repaired vector and the count, -1 where a syndrome remains. -/
def bptcRepair (p : Params) (d : Block196) : Block196 × Int :=
  let out := bptcPasses p p.bptcMaxPasses d
  (out, if bptcClean p out then (wt (out ^^^ d) : Int) else -1)

/-- The place in the matrix, in row order, of payload bit `k`: the three reserved bits come first (R153). -/
def payloadCell (k : Nat) : Nat := cell ((k + 3) / 11) ((k + 3) % 11)

/-- `bptc_payload(D)` (R153). -/
def bptcPayload (d : Block196) : BitVec 96 := ofBits 96 fun k => bit d (payloadCell k)

/-- BP.EXT (R144). -/
def execBpExt (s : State) : Result := .next (s.respond { rv196 := bptcExtract s.ports.burst })

/-- BP.DEINT (R146). -/
def execBpDeint (s : State) : Result := .next (s.respond { rv196 := deinterleave s.params s.ports.v196 })

/-- The response of BP.DEC (R152). -/
def bptcResponse (p : Params) (b : Burst) : Response :=
  let r := bptcRepair p (deinterleave p (bptcExtract b))
  { rp96 := bptcPayload r.1, rcount := sext16 r.2, rvalid := countValid r.2 }

/-- BP.DEC (R152). -/
def execBpDec (s : State) : Result := .next (s.respond (bptcResponse s.params s.ports.burst))

/-! The encoder of R155: no command performs it; the properties of the decoder are stated with it. -/

/-- The 9 x 11 data positions: R2, R1, R0 are 0, then the payload in row order (R153, R155). -/
def payloadAt (m : BitVec 96) (r c : Nat) : Bool := if 11 * r + c < 3 then false else bit m (11 * r + c - 3)

/-- `M[r][c]` of rows 0 to 8: data, then row parity (R148). -/
def encodedRow (p : Params) (m : BitVec 96) (r c : Nat) : Bool :=
  if c < 11 then payloadAt m r c
  else bit (gf2Mul p.hamming15P.toList ((List.range 11).map (payloadAt m r))) (c - 11)

/-- `M[r][c]` of all 13 rows: rows 9 to 12 are the column parity (R149). -/
def encodedCell (p : Params) (m : BitVec 96) (r c : Nat) : Bool :=
  if r < 9 then encodedRow p m r c
  else bit (gf2Mul p.hamming13P.toList ((List.range 9).map fun i => encodedRow p m i c)) (r - 9)

/-- The de-interleaved encoded block (R155). -/
def bptcEncodedMatrix (p : Params) (m : BitVec 96) : Block196 :=
  ofBits 196 fun i => if i = 0 then false else encodedCell p m ((i - 1) / 15) ((i - 1) % 15)

/-- `bptc_encode(P96)` (R155): `V[BPTC_INTERLEAVE(i)] = D[i]`. -/
def bptcEncode (p : Params) (m : BitVec 96) : Block196 :=
  ofBits 196 fun k => bit (bptcEncodedMatrix p m) (p.bptcInterleave.toList.findIdx fun j => j.val == k)

/-- A burst that carries a 196-bit block in the positions of R143, and `other` elsewhere. -/
def burstOf (v : Block196) (other : Burst) : Burst :=
  ofBits 288 fun k =>
    if 24 ≤ k ∧ k < 122 then bit v (k - 24) else if 190 ≤ k then bit v (k - 92) else bit other k

end Sys2Proof.Machine
end

