-- ==== Sys2Proof/Machine/Costas.lean ====
section
/-!
DEFINITION. The Costas loop commands (40_costas_loop.md).
-/

namespace Sys2Proof.Machine

/-- `CL.PHASE <- normalize_phase(CL.PHASE + CL.FREQ)` (R72). -/
def advancePhase (s : State) : State :=
  { s with cl := { s.cl with phase := .normPhase (rAdd s.cl.phase s.cl.freq) } }

/-- The phase and frequency updates of CL.ADJ (R73): the phase uses the frequency before the clamp. -/
def adjustLoop (e : RealTerm) (s : State) : State :=
  let fNew := rAdd s.cl.freq (rMul s.cl.beta e)
  { s with cl := { s.cl with
      phase := .normPhase (rAdd (rAdd s.cl.phase fNew) (rMul s.cl.alpha e))
      freq := .clampFreq (maxFreq s.params) fNew } }

/-- The frequency update of CL.CORR (R76). -/
def correctFreq (c : RealTerm) (s : State) : State :=
  { s with cl := { s.cl with freq := .wrapFreq (maxFreq s.params) (rAdd s.cl.freq c) } }

/-- `(RA, RB) <- vector(CL.PHASE)` (R69). -/
def vectorResponse (s : State) : Response := { ra := .cos s.cl.phase, rb := .sin s.cl.phase }

/-- CL.RESET (R70). -/
def execClReset (s : State) : Result := .next ((loopReset s).respond {})

/-- CL.INC (R72). -/
def execClInc (s : State) : Result := .next ((advancePhase s).respond {})

/-- CL.ADJ (R73), with the automatic path of R83 at its end. -/
def execClAdj (s : State) : Result :=
  withReal s.ports.opa fun e => .next ((autoTrack (adjustLoop e s)).respond {})

/-- CL.VEC (R74). -/
def execClVec (s : State) : Result := .next (s.respond (vectorResponse s))

/-- CL.INCVEC (R75): the vector is of the phase after the increment. -/
def execClIncvec (s : State) : Result :=
  let t := advancePhase s
  .next (t.respond (vectorResponse t))

/-- CL.CORR (R76). -/
def execClCorr (s : State) : Result :=
  withReal s.ports.opa fun c => .next ((correctFreq c s).respond {})

/-- CL.SETTRK (R77). -/
def execClSettrk (t : TrackingState) (s : State) : Result := .next ((setTracking t s).respond {})

/-- CL.SETAUTO (R78). -/
def execClSetauto (e : Bool) (s : State) : Result :=
  .next ({ s with cl := { s.cl with auto := e } }.respond {})

/-- CL.STAT (R79). -/
def execClStat (s : State) : Result :=
  .next (s.respond {
    ra := s.cl.phase
    rb := s.cl.freq
    rc := s.cl.alpha
    rd := s.cl.beta
    rtrk := s.cl.trk.code
    rflag := s.cl.auto })

end Sys2Proof.Machine
end

