-- ==== Sys2Proof/Machine/Fir.lean ====
section
/-!
DEFINITION. The Hilbert-transform FIR commands (42_hilbert_fir.md).
-/

namespace Sys2Proof.Machine

/-- `HT.X[j]`, the sample `j` places before the newest one. -/
def Hilbert.tap (h : Hilbert) (j : Nat) : RealTerm := h.x.toList.getD j (.rat 0)

/-- The delay line after the pair `a`, `b`: it ages by two samples, `a` enters at 1 and `b` at 0 (R106). -/
def pushLine (a b : RealTerm) (x : Vector RealTerm 47) : Vector RealTerm 47 :=
  ⟨(b :: a :: x.toList.take 45).toArray, by simp⟩

/-- `sgn`: the per-output alternating polarity (R106). -/
def polarity (sign : Bool) : RealTerm := .rat (if sign then -1 else 1)

/-- The sum of `HT.QC[k] * HT.X[2*k]` for k in 0..23 (R106). -/
def quadSum (p : Params) (h : Hilbert) : RealTerm :=
  rSum ((List.range 24).map fun k => rMul (quadCoeff p k) (h.tap (2 * k)))

/-- HT.RESET (R105). -/
def execHtReset (s : State) : Result := .next ((hilbertReset s).respond {})

/-- The registers after HT.PUSH of the pair `a`, `b` (R106). -/
def pushPair (a b : RealTerm) (h : Hilbert) : Hilbert := { x := pushLine a b h.x, sign := !h.sign }

/-- The output of HT.PUSH (R106): I is the pure-delay tap, Q the 24-tap filter, both over the line that already holds
the pair, with the polarity as it was before. -/
def pushResponse (p : Params) (a b : RealTerm) (h : Hilbert) : Response :=
  let h' := pushPair a b h
  { ra := rMul (polarity h.sign) (h'.tap 23)
    rb := rMul (polarity h.sign) (quadSum p h') }

/-- HT.PUSH (R106). -/
def execHtPush (s : State) : Result :=
  withReal s.ports.opa fun a => withReal s.ports.opb fun b =>
    .next ({ s with ht := pushPair a b s.ht }.respond (pushResponse s.params a b s.ht))

end Sys2Proof.Machine
end

