-- ==== Sys2Proof/Machine/Golay.lean ====
section
/-!
DEFINITION. The Golay(24) decoder (43_golay24.md).
-/

namespace Sys2Proof.Machine

/-- The parity of 12 information bits: `info * GOLAY24_P` (R119). -/
def golayParity (p : Params) (info : BitVec 12) : BitVec 12 := gf2Mul p.golay24P.toList (bitsOf info)

/-- The codeword of 12 information bits: information first, then parity (R119). -/
def golayEncode (p : Params) (info : BitVec 12) : Word24 := info ++ golayParity p info

/-- `syndrome(r)` (R121). -/
def golaySyndrome (p : Params) (r : Word24) : BitVec 12 := golayParity p (slice r 0 12) ^^^ slice r 12 12

/-- The sublists of `k` elements. -/
def sublistsOf {α : Type} : Nat → List α → List (List α)
  | 0, _ => [[]]
  | _ + 1, [] => []
  | k + 1, x :: xs => (sublistsOf k xs).map (x :: ·) ++ sublistsOf (k + 1) xs

/-- The error patterns of weight 1 to `radius`, lightest first. -/
def errorPatterns (radius : Nat) : List Word24 :=
  (List.range radius).flatMap fun k => (sublistsOf (k + 1) (List.range 24)).map (onesAt 24)

/-- Check and correct (R124): the word and the status. The pattern is unique where R120 holds; where it is not, the
first of the lightest is taken (DESIGN CHOICE, log 11). -/
def golayDecode (p : Params) (r : Word24) : Word24 × BitVec 2 :=
  if golaySyndrome p r = 0 then (r, fecClean)
  else match (errorPatterns p.golayRadius).find? (fun e => golaySyndrome p e = golaySyndrome p r) with
    | some e => (r ^^^ e, fecCorrected)
    | none => (r, fecUncorrectable)

/-- GL.DEC (R124). -/
def execGlDec (s : State) : Result :=
  let d := golayDecode s.params s.ports.w24
  .next (s.respond { rw24 := d.1, rfec := d.2 })

end Sys2Proof.Machine
end

