-- ==== Sys2Proof/Machine/Monitor.lean ====
section
/-!
DEFINITION. The PLL sync monitor commands (41_sync_monitor.md).
-/

namespace Sys2Proof.Machine

/-- PM.RESET (R97): the loop is forced to SEARCHING whatever PM.LEVEL was. -/
def execPmReset (s : State) : Result := .next ((monitorReset s).respond {})

/-- PM.DET (R98); the operand on OPN is ignored (R94). -/
def execPmDet (s : State) : Result := .next ((countEvent 1 s).respond {})

/-- PM.LOST (R99); the operand on OPN is ignored (R94). -/
def execPmLost (s : State) : Result := .next ((countEvent (-2) s).respond {})

/-- The gate of R100: the measurement is forwarded only where the count exceeds the threshold. -/
def ferrResponse (m : RealTerm) (s : State) : Response :=
  if s.params.syncReportThreshold < s.pm.count.toNat then { rflag := true, ra := m } else { rflag := false, ra := .rat 0 }

/-- PM.FERR (R100). It changes no register, so a repeat gives the same response: R100 and 10_state.md R36 are followed
where 20_memory.md R45 says that the commands outside its list change state (DESIGN CHOICE, log 17). -/
def execPmFerr (s : State) : Result :=
  withReal s.ports.opa fun m => .next (s.respond (ferrResponse m s))

/-- PM.STAT (R101). -/
def execPmStat (s : State) : Result :=
  .next (s.respond { rn := s.pm.count, rtrk := s.pm.level.code })

end Sys2Proof.Machine
end

