-- ==== Sys2Proof/Machine/SlotType.lean ====
section
/-!
DEFINITION. The DMR slot-type extractor (44_slot_type.md).
-/

namespace Sys2Proof.Machine

/-- ST.EXT (R134). -/
def execStExt (s : State) : Result := .next (s.respond { rw24 := slotBuffer s.params s.ports.burst })

/-- The response of ST.DEC (R135), from the Golay result on the slot buffer. -/
def slotResponse (word : Word24) (fec : BitVec 2) : Response :=
  if fecValid fec then
    { rw24 := word
      rfec := fec
      rvalid := true
      rcc := slice word 4 4
      rdt := (slice word 8 4).zeroExtend 5
      rcorr := fec = fecCorrected }
  else
    { rw24 := word
      rfec := fec
      rvalid := false
      rcc := slice word 4 4
      rdt := dataTypeUnknown
      rcorr := false }

/-- ST.DEC (R135). -/
def execStDec (s : State) : Result :=
  let d := golayDecode s.params (slotBuffer s.params s.ports.burst)
  .next (s.respond (slotResponse d.1 d.2))

/-- The data types of 44_slot_type.md R138, by code; the labels bind no rule of the block. -/
inductive DataType where
  | piHeader
  | voiceHeader
  | tlc
  | csbk
  | mbcHeader
  | mbcBlock
  | dataHeader
  | rate1Of2Data
  | rate3Of4Data
  | idle
  | rate1Data
  | usbData
  | reserved12
  | reserved13
  | reserved14
  | reserved15
  | unknown
  deriving DecidableEq, Repr

/-- The label of a code on RDT (R138); the codes 17 to 31 are never produced (30_encoding.md R52). -/
def dataTypeLabel (rdt : BitVec 5) : Option DataType :=
  [.piHeader, .voiceHeader, .tlc, .csbk, .mbcHeader, .mbcBlock, .dataHeader, .rate1Of2Data, .rate3Of4Data, .idle,
    .rate1Data, .usbData, .reserved12, .reserved13, .reserved14, .reserved15, DataType.unknown][rdt.toNat]?

end Sys2Proof.Machine
end

