-- ==== Sys2Proof/Machine/Trellis.lean ====
section
/-!
DEFINITION. The rate-3/4 trellis (Viterbi) decoder (46_trellis_3_4.md).
-/

namespace Sys2Proof.Machine

/-- `PT(TRELLIS_ENC[s][t])`: the pattern sent from state `s` on tribit `t` (R164, R165). -/
def branchPattern (p : Params) (s t : Nat) : BitVec 4 :=
  p.trellisPT.toList.getD ((p.trellisEnc.toList.getD s default).toList.getD t 0).val 0

/-- The received dibit `k` that stands at position `i` after de-interleaving: `TRELLIS_INTERLEAVE(k) = i` (R163). -/
def dibitSource (p : Params) (i : Nat) : Nat := p.trellisInterleave.toList.findIdx fun j => j.val == i

/-- `r_j = E[2j] ++ E[2j+1]`, the received point `j` of the extracted bits `v` (R162, R163). -/
def receivedPoint (p : Params) (v : Block196) (j : Nat) : BitVec 4 :=
  ofBits 4 fun i => bit v (2 * dibitSource p (2 * j + i / 2) + i % 2)

/-- `r_0 .. r_48` (R163). -/
def receivedPoints (p : Params) (v : Block196) : List (BitVec 4) := (List.range 49).map (receivedPoint p v)

/-- Path metrics, one a state; `none` is INF (R170). -/
abbrev Metrics := List (Option Nat)

/-- The least cost over the predecessors from `s` on, and the least predecessor that reaches it (R170): `m` are the
metrics of the states from `s` on. A later predecessor wins only where its cost is less. -/
def bestBranch (p : Params) (r : BitVec 4) (t : Nat) : Nat → Metrics → Option (Nat × Nat)
  | _, [] => none
  | s, m :: ms =>
    match m, bestBranch p r t (s + 1) ms with
    | none, best => best
    | some c, none => some (c + wt (r ^^^ branchPattern p s t), s)
    | some c, some (c', s') =>
      if c' < c + wt (r ^^^ branchPattern p s t) then some (c', s')
      else some (c + wt (r ^^^ branchPattern p s t), s)

/-- One step of the search: for each new state its best branch (R170). -/
def trellisStep (p : Params) (m : Metrics) (r : BitVec 4) : List (Option (Nat × Nat)) :=
  (List.range 8).map fun t => bestBranch p r t 0 m

/-- The new metrics of a step. -/
def stepMetrics (l : List (Option (Nat × Nat))) : Metrics := l.map (·.map (·.1))

/-- The predecessors of a step; a state no path reaches has none to trace, and 0 stands there. -/
def stepPreds (l : List (Option (Nat × Nat))) : List Nat := l.map fun b => (b.map (·.2)).getD 0

/-- The forward search (R170): the final metrics, and the predecessors of the steps, last step first. -/
def viterbiForward (p : Params) : Metrics → List (List Nat) → List (BitVec 4) → Metrics × List (List Nat)
  | m, preds, [] => (m, preds)
  | m, preds, r :: rs =>
    let l := trellisStep p m r
    viterbiForward p (stepMetrics l) (stepPreds l :: preds) rs

/-- The trace back from `state` (R170): the tribits, first step first, put before `acc`. -/
def traceback : Nat → List (List Nat) → List Nat → List Nat
  | _, [], acc => acc
  | state, preds :: rest, acc => traceback (preds.getD state 0) rest (state :: acc)

/-- The metrics at the start: state 0 only (R170). -/
def startMetrics : Metrics := [some 0, none, none, none, none, none, none, none]

/-- The 144 payload bits of the tribits `t_0 .. t_47`, each most significant bit first (R170). -/
def tribitPayload (ts : List Nat) : BitVec 144 :=
  ofBits 144 fun i => (ts.getD (i / 3) 0).testBit (2 - i % 3)

/-- `viterbi(r_0 .. r_48)` (R170): the payload and the metric of state 0. -/
def viterbi (p : Params) (rs : List (BitVec 4)) : BitVec 144 × Nat :=
  let f := viterbiForward p startMetrics [] rs
  (tribitPayload (traceback 0 f.2 []), (f.1.getD 0 none).getD 0)

/-- Whether a path metric is within VITERBI_FAIL_METRIC (R171). -/
def metricPasses (p : Params) (metric : Nat) : Bool :=
  match p.viterbiFailMetric with
  | none => true
  | some bound => metric ≤ bound

/-- The response of TR.DEC (R171). -/
def trellisResponse (p : Params) (b : Burst) : Response :=
  let d := viterbi p (receivedPoints p (bptcExtract b))
  let count : Int := if metricPasses p d.2 then (d.2 : Int) else -1
  { rp144 := d.1, rcount := sext16 count, rvalid := metricPasses p d.2 }

/-- TR.DEC (R171). -/
def execTrDec (s : State) : Result := .next (s.respond (trellisResponse s.params s.ports.burst))

/-! The transmitter's encoder of R165: no command performs it; it gives the decoder its meaning. -/

/-- The input tribits `t_0 .. t_47` of the data, then the flush tribit 0. -/
def dataTribits (m : BitVec 144) : List Nat := (List.range 48).map (fun j => (slice m (3 * j) 3).toNat) ++ [0]

/-- The patterns sent for input tribits, from state `s`; the next state is the tribit. -/
def sentPatterns (p : Params) : Nat → List Nat → List (BitVec 4)
  | _, [] => []
  | s, t :: ts => branchPattern p s t :: sentPatterns p t ts

/-- `trellis_encode(P)`: received dibit `k` is `E[TRELLIS_INTERLEAVE(k)]` (R165). -/
def trellisEncode (p : Params) (m : BitVec 144) : Block196 :=
  let e := sentPatterns p 0 (dataTribits m)
  ofBits 196 fun i =>
    let pos := (p.trellisInterleave.toList.getD (i / 2) 0).val
    bit (e.getD (pos / 2) 0) (2 * (pos % 2) + i % 2)

end Sys2Proof.Machine
end

