-- ==== Sys2Proof/Machine/Dispatch.lean ====
section
/-!
DEFINITION. The meaning of every command, one arm a constructor (30_encoding.md R54).
-/

namespace Sys2Proof.Machine

def exec (i : Instr) (s : State) : Host.Outcome State Fault Refusal :=
  match i with
  -- 40_costas_loop.md
  | .clReset => Sys2Proof.Machine.execClReset s
  | .clInc => Sys2Proof.Machine.execClInc s
  | .clAdj => Sys2Proof.Machine.execClAdj s
  | .clVec => Sys2Proof.Machine.execClVec s
  | .clIncvec => Sys2Proof.Machine.execClIncvec s
  | .clCorr => Sys2Proof.Machine.execClCorr s
  | .clSettrk t => Sys2Proof.Machine.execClSettrk t s
  | .clSetauto e => Sys2Proof.Machine.execClSetauto e s
  | .clStat => Sys2Proof.Machine.execClStat s
  -- 41_sync_monitor.md
  | .pmReset => Sys2Proof.Machine.execPmReset s
  | .pmDet => Sys2Proof.Machine.execPmDet s
  | .pmLost => Sys2Proof.Machine.execPmLost s
  | .pmFerr => Sys2Proof.Machine.execPmFerr s
  | .pmStat => Sys2Proof.Machine.execPmStat s
  -- 42_hilbert_fir.md
  | .htReset => Sys2Proof.Machine.execHtReset s
  | .htPush => Sys2Proof.Machine.execHtPush s
  -- 43_golay24.md
  | .glDec => Sys2Proof.Machine.execGlDec s
  -- 44_slot_type.md
  | .stExt => Sys2Proof.Machine.execStExt s
  | .stDec => Sys2Proof.Machine.execStDec s
  -- 45_bptc_196_96.md
  | .bpExt => Sys2Proof.Machine.execBpExt s
  | .bpDeint => Sys2Proof.Machine.execBpDeint s
  | .bpDec => Sys2Proof.Machine.execBpDec s
  -- 46_trellis_3_4.md
  | .trDec => Sys2Proof.Machine.execTrDec s
  -- 70_reset_and_hazards.md and 60_exceptions.md
  | .blkReset => Sys2Proof.Machine.execBlkReset s
  | .blkStat => Sys2Proof.Machine.execBlkStat s

end Sys2Proof.Machine
end

