-- ==== Sys2Proof/Machine/Step.lean ====
section
/-!
DEFINITION. One step (30_encoding.md R49): the host's next input is taken, decoded, and executed or rejected.
-/

namespace Sys2Proof.Machine

/-- One step. With no input pending the block is idle and holds its state (60_exceptions.md R190). A command word that
selects no row is rejected from the word alone (60_exceptions.md R177), so its operands are not read. -/
def step (s : State) : Host.Outcome State Fault Refusal :=
  match s.pending with
  | [] => .next s
  | .resetInput :: rest => .next (takeResetInput rest s)
  | .command w ports :: rest =>
    match decode w with
    | some i => exec i (s.present ports rest)
    | none => .next (reject w (s.present ports rest))

/-- `s` with the table word `w` presented as the next command, so that `step` runs exactly it. Every command is one
16-bit word (30_encoding.md R59), so `nbits` is 16 in every row. -/
def State.withFetchWord (s : State) (_nbits w : Nat) : State := presentWord (BitVec.ofNat 16 w) s

end Sys2Proof.Machine
end

