-- ==== Sys2Proof/WellFormed.lean ====
section
/-!
DEFINITION. When a command may be presented: the operand contract of 70_reset_and_hazards.md R193 (a). The immediates
of a command need no check, because `Instr` holds them in types that have exactly their legal values (30_encoding.md
R55), and the width of every other port is its type (20_memory.md R44).
-/

namespace Sys2Proof

/-- The port carries a finite REAL (10_state.md R37). -/
def RealPort.isFinite : RealPort → Bool
  | .finite _ => true
  | .nan => false
  | .posInf => false
  | .negInf => false

/-- Command `i` may be presented with the operands `p`: every REAL port it reads (30_encoding.md R51, R54) is finite.
The ports it does not read are ignored. -/
def Instr.wellFormed (i : Instr) (p : Ports) : Bool :=
  match i with
  | .clAdj => p.opa.isFinite
  | .clCorr => p.opa.isFinite
  | .pmFerr => p.opa.isFinite
  | .htPush => p.opa.isFinite && p.opb.isFinite
  | .clReset | .clInc | .clVec | .clIncvec | .clSettrk _ | .clSetauto _ | .clStat => true
  | .pmReset | .pmDet | .pmLost | .pmStat => true
  | .htReset | .glDec | .stExt | .stDec | .bpExt | .bpDeint | .bpDec | .trDec => true
  | .blkReset | .blkStat => true

end Sys2Proof
end

