-- ==== Sys2Proof/Machine/Pseudo.lean ====
section
/-!
DEFINITION. The pseudo-commands of the host (30_encoding.md R61 to R63): sequences of commands that the host issues
one after another, each after the response of the one before it.
-/

namespace Sys2Proof.Machine

/-- The pseudo-commands with their operands. `filter` takes real samples and a timestamp (42_hilbert_fir.md R108). -/
inductive PseudoCommand where
  | htFilter (samples : List RealPort) (timestamp : Nat)
  | bpExtdeint (burst : Burst)
  | clDespin (n : Nat)
  | dmrPayload (burst : Burst)
  deriving DecidableEq, Repr

/-- What the assembler accepts (30_encoding.md R61, R193 (a)): finite samples, an even number of them. -/
def PseudoCommand.wellFormed : PseudoCommand → Bool
  | .htFilter xs _ => xs.length % 2 == 0 && xs.all RealPort.isFinite
  | .bpExtdeint _ => true
  | .clDespin _ => true
  | .dmrPayload _ => true

/-- Going on from a next state; a fault or a refusal ends the sequence. -/
def andThen {α β : Type} (o : Host.Outcome α Fault Refusal) (k : α → Host.Outcome β Fault Refusal) :
    Host.Outcome β Fault Refusal :=
  match o with
  | .next a => k a
  | .fault r => .fault r
  | .refused r => .refused r

/-- The host issues one command, before anything else that is pending, and waits for its response. -/
def issue (i : Instr) (ports : Ports) (s : State) : Result :=
  step { s with pending := .command (encode i) ports :: s.pending }

/-- The response the host reads after a command. -/
def State.response (s : State) : Response := s.resp.getD {}

/-- One output pair of a response, (RA, RB). -/
def State.outputPair (s : State) : RealTerm × RealTerm := (s.response.ra, s.response.rb)

/-- The HT.PUSH commands of a block, in order, with their outputs (30_encoding.md R61). -/
def pushSamples : List RealPort → State → Host.Outcome (State × List (RealTerm × RealTerm)) Fault Refusal
  | [], s => .next (s, [])
  | [_], _ => .refused .oddFilterBlock
  | a :: b :: rest, s =>
    andThen (issue .htPush { opa := a, opb := b } s) fun s' =>
      andThen (pushSamples rest s') fun out => .next (out.1, s'.outputPair :: out.2)

/-- `ht.filter samples` (30_encoding.md R61): refused for an odd block before any command is issued (42_hilbert_fir.md
R109); the timestamp of the output block is the input's (R108). -/
def htFilter (samples : List RealPort) (timestamp : Nat) (s : State) :
    Host.Outcome (State × Nat × List (RealTerm × RealTerm)) Fault Refusal :=
  if samples.length % 2 = 0 then
    andThen (pushSamples samples s) fun out => .next (out.1, timestamp, out.2)
  else .refused .oddFilterBlock

/-- `bp.extdeint burst` (30_encoding.md R62). -/
def bpExtdeint (burst : Burst) (s : State) : Host.Outcome (State × Block196) Fault Refusal :=
  andThen (issue .bpExt { burst := burst } s) fun s1 =>
    andThen (issue .bpDeint { v196 := s1.response.rv196 } s1) fun s2 => .next (s2, s2.response.rv196)

/-- `cl.despin n` (30_encoding.md R62). -/
def clDespin : Nat → State → Host.Outcome (State × List (RealTerm × RealTerm)) Fault Refusal
  | 0, s => .next (s, [])
  | n + 1, s =>
    andThen (issue .clIncvec {} s) fun s' =>
      andThen (clDespin n s') fun out => .next (out.1, s'.outputPair :: out.2)

/-- The payload of `dmr.payload`: 144, 196 or 96 bits, by the decoder that was used (30_encoding.md R63). -/
inductive Payload where
  | trellis (bits : BitVec 144)
  | raw (bits : Block196)
  | bptc (bits : BitVec 96)
  deriving DecidableEq, Repr

/-- `dmr.payload burst` (30_encoding.md R63): correct, classify, then decode; the payload with its combined validity. -/
def dmrPayload (burst : Burst) (s : State) : Host.Outcome (State × Payload × Bool) Fault Refusal :=
  andThen (issue .stDec { burst := burst } s) fun s1 =>
    let slotValid := s1.response.rvalid
    if slotValid && s1.response.rdt == 8 then
      andThen (issue .trDec { burst := burst } s1) fun s2 =>
        .next (s2, .trellis s2.response.rp144, slotValid && s2.response.rvalid)
    else if slotValid && s1.response.rdt == 10 then
      andThen (issue .bpExt { burst := burst } s1) fun s2 => .next (s2, .raw s2.response.rv196, slotValid)
    else
      andThen (issue .bpDec { burst := burst } s1) fun s2 =>
        .next (s2, .bptc s2.response.rp96, slotValid && s2.response.rvalid)

/-- What a pseudo-command gives the host besides the state. -/
inductive PseudoResult where
  | block (timestamp : Nat) (samples : List (RealTerm × RealTerm))
  | vector (bits : Block196)
  | pairs (samples : List (RealTerm × RealTerm))
  | payload (bits : Payload) (valid : Bool)
  deriving DecidableEq, Repr

/-- The expansion of a pseudo-command, run. -/
def runPseudo (c : PseudoCommand) (s : State) : Host.Outcome (State × PseudoResult) Fault Refusal :=
  match c with
  | .htFilter xs ts => andThen (htFilter xs ts s) fun out => .next (out.1, .block out.2.1 out.2.2)
  | .bpExtdeint b => andThen (bpExtdeint b s) fun out => .next (out.1, .vector out.2)
  | .clDespin n => andThen (clDespin n s) fun out => .next (out.1, .pairs out.2)
  | .dmrPayload b => andThen (dmrPayload b s) fun out => .next (out.1, .payload out.2.1 out.2.2)

end Sys2Proof.Machine
end

