-- ==== Sys2Proof/Machine/Assembler.lean ====
section
/-!
DEFINITION. The assembler of 30_encoding.md R60: the text of one line to the command and operands the host presents, or
to a pseudo-command of the host.
-/

namespace Sys2Proof.Machine

/-- The value of a decimal digit. -/
def decDigit (c : Char) : Option Nat := if '0' ≤ c ∧ c ≤ '9' then some (c.toNat - '0'.toNat) else none

/-- The value of a hexadecimal digit. -/
def hexDigit (c : Char) : Option Nat :=
  if '0' ≤ c ∧ c ≤ '9' then some (c.toNat - '0'.toNat)
  else if 'a' ≤ c ∧ c ≤ 'f' then some (c.toNat - 'a'.toNat + 10)
  else if 'A' ≤ c ∧ c ≤ 'F' then some (c.toNat - 'A'.toNat + 10)
  else none

/-- The number a list of digits writes in base `base`. -/
def digitsValue (digit : Char → Option Nat) (base : Nat) : List Char → Nat → Option Nat
  | [], acc => some acc
  | c :: cs, acc => (digit c).bind fun d => digitsValue digit base cs (base * acc + d)

/-- A decimal integer: at least one digit. -/
def decimalNat (cs : List Char) : Option Nat := if cs.isEmpty then none else digitsValue decDigit 10 cs 0

/-- A decimal literal without its sign: digits, or digits, a point and digits. -/
def decimalAbs (cs : List Char) : Option ℚ :=
  match cs.span (· ≠ '.') with
  | (whole, []) => (decimalNat whole).map fun n => (n : ℚ)
  | (whole, _ :: frac) =>
    (decimalNat whole).bind fun n => (decimalNat frac).map fun f => (n : ℚ) + (f : ℚ) / (10 ^ frac.length : Nat)

/-- A REAL operand is a decimal literal (R60). -/
def realLiteral (s : String) : Option RealTerm :=
  match s.toList with
  | '-' :: cs => (decimalAbs cs).map fun q => .rat (-q)
  | cs => (decimalAbs cs).map .rat

/-- A bit vector written as `n / 4` hexadecimal digits, index 0 most significant (R60). -/
def hexVector (n : Nat) (s : String) : Option (BitVec n) :=
  if 4 * s.toList.length = n then (digitsValue hexDigit 16 s.toList 0).map (BitVec.ofNat n) else none

/-- The name of a tracking state (R60). -/
def trackingName (s : String) : Option TrackingState :=
  if s = "SEARCHING" then some .searching
  else if s = "COARSE" then some .coarse
  else if s = "FINE" then some .fine
  else if s = "LOCKED" then some .locked
  else none

/-- One operand of a line. `burstFlips` is `burst(zero flip i, j, ...)` and `burstHex` is `burst(<72 hex digits>)`. -/
inductive AsmOperand where
  | text (s : String)
  | burstFlips (is : List Nat)
  | burstHex (s : String)
  deriving DecidableEq, Repr

/-- The burst an operand writes; a flipped index is below 288 (R60). -/
def AsmOperand.burst? : AsmOperand → Option Burst
  | .burstFlips is => if is.all (· < 288) then some (onesAt 288 is) else none
  | .burstHex s => hexVector 288 s
  | .text _ => none

/-- What a line presents to the block: a command with its operands, or a pseudo-command of the host. -/
inductive AsmLine where
  | command (i : Instr) (ports : Ports)
  | pseudo (c : PseudoCommand)
  deriving DecidableEq, Repr

/-- A command without operands. -/
def bareCommand (m : String) : Option Instr :=
  if m = "cl.reset" then some .clReset
  else if m = "cl.inc" then some .clInc
  else if m = "cl.vec" then some .clVec
  else if m = "cl.incvec" then some .clIncvec
  else if m = "cl.stat" then some .clStat
  else if m = "pm.reset" then some .pmReset
  else if m = "pm.stat" then some .pmStat
  else if m = "ht.reset" then some .htReset
  else if m = "blk.reset" then some .blkReset
  else if m = "blk.stat" then some .blkStat
  else none

/-- A command with one operand written as text. -/
def textCommand (m s : String) : Option AsmLine :=
  if m = "cl.adj" then (realLiteral s).map fun x => .command .clAdj { opa := .finite x }
  else if m = "cl.corr" then (realLiteral s).map fun x => .command .clCorr { opa := .finite x }
  else if m = "pm.ferr" then (realLiteral s).map fun x => .command .pmFerr { opa := .finite x }
  else if m = "cl.settrk" then (trackingName s).map fun t => .command (.clSettrk t) {}
  else if m = "cl.setauto" then
    if s = "0" then some (.command (.clSetauto false) {}) else if s = "1" then some (.command (.clSetauto true) {}) else none
  else if m = "pm.det" then ((decimalNat s.toList).filter (· < 2 ^ 32)).map fun n => .command .pmDet { opn := BitVec.ofNat 32 n }
  else if m = "pm.lost" then ((decimalNat s.toList).filter (· < 2 ^ 32)).map fun n => .command .pmLost { opn := BitVec.ofNat 32 n }
  else if m = "gl.dec" then (hexVector 24 s).map fun w => .command .glDec { w24 := w }
  else if m = "bp.deint" then (hexVector 196 s).map fun v => .command .bpDeint { v196 := v }
  else if m = "cl.despin" then (decimalNat s.toList).map fun n => .pseudo (.clDespin n)
  else none

/-- A command whose operand is a burst. -/
def burstCommand (m : String) (b : Burst) : Option AsmLine :=
  if m = "st.ext" then some (.command .stExt { burst := b })
  else if m = "st.dec" then some (.command .stDec { burst := b })
  else if m = "bp.ext" then some (.command .bpExt { burst := b })
  else if m = "bp.dec" then some (.command .bpDec { burst := b })
  else if m = "tr.dec" then some (.command .trDec { burst := b })
  else if m = "bp.extdeint" then some (.pseudo (.bpExtdeint b))
  else if m = "dmr.payload" then some (.pseudo (.dmrPayload b))
  else none

/-- One line (R60); `none` where the assembler refuses it. -/
def assemble (m : String) (ops : List AsmOperand) : Option AsmLine :=
  match ops with
  | [] => (bareCommand m).map fun i => .command i {}
  | [.text s] => textCommand m s
  | [.text a, .text b] =>
    if m = "ht.push" then
      (realLiteral a).bind fun x => (realLiteral b).map fun y => .command .htPush { opa := .finite x, opb := .finite y }
    else none
  | [op] => op.burst?.bind (burstCommand m)
  | _ => none

/-- `ht.filter [x, ...]`, whose operand is a list of decimal literals; refused for an odd number of them (R61). -/
def assembleFilter (samples : List String) (timestamp : Nat) : Option AsmLine :=
  if samples.length % 2 = 0 then
    (samples.mapM realLiteral).map fun xs => .pseudo (.htFilter (xs.map .finite) timestamp)
  else none

/-! ### The text of a line -/

/-- The parts of a text between the separators `c`. -/
def splitAtChar (c : Char) : List Char → List (List Char)
  | [] => [[]]
  | x :: xs =>
    if x = c then [] :: splitAtChar c xs
    else match splitAtChar c xs with
      | [] => [[x]]
      | part :: parts => (x :: part) :: parts

/-- A text without the spaces at its ends. -/
def trimSpaces (cs : List Char) : List Char :=
  ((cs.dropWhile (· = ' ')).reverse.dropWhile (· = ' ')).reverse

/-- A text without the word it begins with; `none` where it begins otherwise. -/
def afterWord : List Char → List Char → Option (List Char)
  | [], cs => some cs
  | w :: ws, c :: cs => if c = w then afterWord ws cs else none
  | _ :: _, [] => none

/-- The text between an opening word and a closing character. -/
def between (opening : String) (closing : Char) (cs : List Char) : Option (List Char) :=
  (afterWord opening.toList cs).bind fun rest =>
    match rest.reverse with
    | c :: inner => if c = closing then some (trimSpaces inner.reverse) else none
    | [] => none

/-- Texts separated by commas; no text at all where there is nothing between. -/
def commaTexts (cs : List Char) : List (List Char) :=
  if cs.isEmpty then [] else (splitAtChar ',' cs).map trimSpaces

/-- The operand between `burst(` and `)`: `zero`, `zero flip i, j, ...`, or hexadecimal digits. -/
def burstSpec (cs : List Char) : Option AsmOperand :=
  match afterWord "zero".toList cs with
  | none => some (.burstHex (String.ofList cs))
  | some rest =>
    if rest.isEmpty then some (.burstFlips [])
    else (afterWord " flip ".toList rest).bind fun is => ((commaTexts (trimSpaces is)).mapM decimalNat).map .burstFlips

/-- A mnemonic with the text of its operands. -/
def assembleOperands (m : String) (rest : List Char) (timestamp : Nat) : Option AsmLine :=
  match between "burst(" ')' rest, between "[" ']' rest with
  | some spec, _ => (burstSpec spec).bind fun op => assemble m [op]
  | none, some xs => if m = "ht.filter" then assembleFilter ((commaTexts xs).map String.ofList) timestamp else none
  | none, none => assemble m ((commaTexts rest).map fun t => .text (String.ofList t))

/-- One line (R60): its comment, from `;` on, is dropped; a line with nothing else presents nothing, `some none`; a line
the assembler refuses is `none`. The timestamp is the host's, for `ht.filter` (42_hilbert_fir.md R108). -/
def assembleLine (line : String) (timestamp : Nat) : Option (Option AsmLine) :=
  let cs := trimSpaces (line.toList.takeWhile (· ≠ ';'))
  if cs.isEmpty then some none
  else
    (assembleOperands (String.ofList (cs.takeWhile (· ≠ ' '))) (trimSpaces (cs.dropWhile (· ≠ ' '))) timestamp).map some

end Sys2Proof.Machine
end

