-- ==== Sys2Proof/Machine/RealValue.lean ====
section
/-!
DEFINITION. The real number a REAL term stands for, and the real functions of 40_costas_loop.md R66 to R69 and R76.
The step never computes with these: it builds terms. Statements about REAL registers are about their values here.
-/

namespace Sys2Proof.Machine

/-- `normalize_phase(p)` (R67), its two loops counted: the first subtracts `2*pi` as often as it takes to bring `p`
below `2*pi`, the second adds `2*pi` as often as it takes to bring the result above `-2*pi` (log 9). -/
noncomputable def normalizePhase (p : ℝ) : ℝ :=
  let q := p - 2 * Real.pi * (⌊p / (2 * Real.pi)⌋₊ : ℝ)
  q + 2 * Real.pi * (⌊-q / (2 * Real.pi)⌋₊ : ℝ)

/-- `clamp(x, lo, hi)` (00_scope.md R14). -/
noncomputable def clampReal (x lo hi : ℝ) : ℝ := if x < lo then lo else if hi < x then hi else x

/-- `clamp_freq(f)` for `MAX_FREQ = bound` (R68). -/
noncomputable def clampFreqReal (bound f : ℝ) : ℝ := clampReal f (-bound) bound

/-- The wrap of R76 for `MAX_FREQ = bound`, its two loops counted (log 9). -/
noncomputable def wrapFreqReal (bound f : ℝ) : ℝ :=
  let g := f - 2 * bound * (⌈(f - bound) / (2 * bound)⌉₊ : ℝ)
  g + 2 * bound * (⌈(-bound - g) / (2 * bound)⌉₊ : ℝ)

/-- `alpha_of(B)` as a real function (R66). -/
noncomputable def alphaReal (b : ℝ) : ℝ :=
  4 * (Real.sqrt 2 / 2) * b / (1 + 2 * (Real.sqrt 2 / 2) * b + b * b)

/-- `beta_of(B)` as a real function (R66). -/
noncomputable def betaReal (b : ℝ) : ℝ :=
  4 * b * b / (1 + 2 * (Real.sqrt 2 / 2) * b + b * b)

end Sys2Proof.Machine

namespace Sys2Proof

open Machine in
/-- The real number a term stands for, where atom `n` stands for `ρ n`. -/
noncomputable def RealTerm.val (ρ : Nat → ℝ) : RealTerm → ℝ
  | .rat q => (q : ℝ)
  | .atom n => ρ n
  | .pi => Real.pi
  | .add a b => a.val ρ + b.val ρ
  | .sub a b => a.val ρ - b.val ρ
  | .mul a b => a.val ρ * b.val ρ
  | .div a b => a.val ρ / b.val ρ
  | .sqrt a => Real.sqrt (a.val ρ)
  | .cos a => Real.cos (a.val ρ)
  | .sin a => Real.sin (a.val ρ)
  | .normPhase p => normalizePhase (p.val ρ)
  | .clampFreq m f => clampFreqReal (m.val ρ) (f.val ρ)
  | .wrapFreq m f => wrapFreqReal (m.val ρ) (f.val ρ)

end Sys2Proof

namespace Sys2Proof.Machine

/-- `MAX_FREQ` of an instance, as a real number (00_scope.md R9). -/
noncomputable def maxFreqReal (ρ : Nat → ℝ) (p : Params) : ℝ :=
  2 * Real.pi * (p.symbolRate.val ρ / 2) / p.sampleRate.val ρ

end Sys2Proof.Machine
end

