-- ==== Sys2Proof/Safety.lean ====
section
/-!
DEFINITION. The terms claims are stated in: the constraints that 00_scope.md R8 puts on the parameters, the invariants
of 10_state.md, repeated commands, and real input sequences.
-/

namespace Sys2Proof.Machine

/-- The 29 legal command words (30_encoding.md R57): the 23 words with IMM = 0, then CL.SETTRK and CL.SETAUTO. -/
def legalWords : List CmdWord :=
  [0x0000, 0x0100, 0x0200, 0x0300, 0x0400, 0x0500, 0x0800, 0x1000, 0x1100, 0x1200, 0x1300, 0x1400, 0x2000, 0x2100,
    0x3000, 0x4000, 0x4100, 0x5000, 0x5100, 0x5200, 0x6000, 0xF000, 0xF100] ++
  [0x0600, 0x0601, 0x0602, 0x0603] ++ [0x0700, 0x0701]

end Sys2Proof.Machine

namespace Sys2Proof

open Machine

/-- SYMBOL_RATE and SAMPLE_RATE are positive (00_scope.md R8). -/
def Params.RatesPositive (ρ : Nat → ℝ) (p : Params) : Prop :=
  0 < p.symbolRate.val ρ ∧ 0 < p.sampleRate.val ρ

/-- Every LOOP_BW is positive, and they do not increase from SEARCHING to LOCKED (00_scope.md R8). -/
def Params.BandwidthsValid (ρ : Nat → ℝ) (p : Params) : Prop :=
  0 < p.bwLocked.val ρ ∧ p.bwLocked.val ρ ≤ p.bwFine.val ρ ∧ p.bwFine.val ρ ≤ p.bwCoarse.val ρ ∧
    p.bwCoarse.val ρ ≤ p.bwSearching.val ρ

/-- SYNC_LEVEL is a table over 0..MAX_SYNC_COUNT with SYNC_LEVEL[0] = SEARCHING (00_scope.md R8). -/
def Params.SyncTableValid (p : Params) : Prop :=
  p.syncLevel.length = p.maxSyncCount.toNat + 1 ∧ p.syncLevel.head? = some .searching

/-- HALFBAND_47 is symmetric (42_hilbert_fir.md R103). -/
def Params.HalfbandSymmetric (ρ : Nat → ℝ) (p : Params) : Prop :=
  ∀ n ≤ 46, (halfband p n).val ρ = (halfband p (46 - n)).val ρ

/-- GOLAY_RADIUS is 1 to 3 (00_scope.md R8). -/
def Params.RadiusInRange (p : Params) : Prop := 1 ≤ p.golayRadius ∧ p.golayRadius ≤ 3

/-- BPTC_MAX_PASSES is at least 1 (00_scope.md R8). -/
def Params.PassesPositive (p : Params) : Prop := 1 ≤ p.bptcMaxPasses

/-- GOLAY_RADIUS is 1 to 3, and the code's minimum distance is at least 2*GOLAY_RADIUS + 2 (00_scope.md R8,
43_golay24.md R120). -/
def Params.GolayValid (p : Params) : Prop :=
  1 ≤ p.golayRadius ∧ p.golayRadius ≤ 3 ∧
    ∀ info : BitVec 12, info ≠ 0 → 2 * p.golayRadius + 2 ≤ wt (golayEncode p info)

/-- The 15 single-bit syndromes of the row code are distinct and not 0 (45_bptc_196_96.md R148). -/
def Params.RowCodeValid (p : Params) : Prop :=
  (∀ i < 15, syndrome15 p (unitBit 15 i) ≠ 0) ∧
    ∀ i < 15, ∀ j < 15, syndrome15 p (unitBit 15 i) = syndrome15 p (unitBit 15 j) → i = j

/-- The 13 single-bit syndromes of the column code are distinct and not 0 (45_bptc_196_96.md R149). -/
def Params.ColCodeValid (p : Params) : Prop :=
  (∀ i < 13, syndrome13 p (unitBit 13 i) ≠ 0) ∧
    ∀ i < 13, ∀ j < 13, syndrome13 p (unitBit 13 i) = syndrome13 p (unitBit 13 j) → i = j

/-- BPTC_INTERLEAVE is a permutation (00_scope.md R8). -/
def Params.BptcInterleaveValid (p : Params) : Prop := p.bptcInterleave.toList.Nodup

/-- SLOT_TYPE_INDEX names 20 different burst bits (44_slot_type.md R132). -/
def Params.SlotIndexValid (p : Params) : Prop := p.slotTypeIndex.toList.Nodup

/-- TRELLIS_INTERLEAVE is a permutation and the 16 patterns of TRELLIS_POINT are distinct (00_scope.md R8). -/
def Params.TrellisTablesValid (p : Params) : Prop :=
  p.trellisInterleave.toList.Nodup ∧ p.trellisPT.toList.Nodup

/-- From a known state the point sent determines the tribit (46_trellis_3_4.md R169). -/
def Params.TrellisStatesSeparate (p : Params) : Prop :=
  ∀ s : Fin 8, p.trellisEnc[s].toList.Nodup

/-- Every constraint that 00_scope.md R8 and the rules of the tables (41_sync_monitor.md R92, 42_hilbert_fir.md R103,
44_slot_type.md R132, 45_bptc_196_96.md R148 and R149, 46_trellis_3_4.md R169) put on the parameters; the requirement
of 43_golay24.md R120 on GOLAY24_P, which a model may take as a hypothesis, is `Params.GolayValid`. -/
structure Params.Constrained (ρ : Nat → ℝ) (p : Params) : Prop where
  rates : p.RatesPositive ρ
  bandwidths : p.BandwidthsValid ρ
  syncTable : p.SyncTableValid
  halfband : p.HalfbandSymmetric ρ
  radius : p.RadiusInRange
  slotIndex : p.SlotIndexValid
  bptcInterleave : p.BptcInterleaveValid
  rowCode : p.RowCodeValid
  colCode : p.ColCodeValid
  passes : p.PassesPositive
  trellisTables : p.TrellisTablesValid
  trellisStates : p.TrellisStatesSeparate

end Sys2Proof

namespace Sys2Proof.Machine

/-- The number of bits in which received points differ from sent patterns (46_trellis_3_4.md R170). -/
def pointDistance (received sent : List (BitVec 4)) : Nat :=
  (List.zipWith (fun r q => wt (r ^^^ q)) received sent).sum

/-- Two bursts agree at every position that carries the 196-bit block (45_bptc_196_96.md R143). -/
def SamePayloadBits (b b' : Burst) : Prop :=
  ∀ k, (24 ≤ k ∧ k ≤ 121 ∨ 190 ≤ k ∧ k ≤ 287) → bit b k = bit b' k

/-- Two bursts agree at every slot-type position (44_slot_type.md R133). -/
def SameSlotBits (p : Params) (b b' : Burst) : Prop :=
  ∀ k ∈ p.slotTypeIndex.toList, bit b k.val = bit b' k.val

/-- `-2*pi < CL.PHASE < 2*pi` (10_state.md R20). -/
def PhaseInRange (ρ : Nat → ℝ) (s : State) : Prop :=
  -(2 * Real.pi) < s.cl.phase.val ρ ∧ s.cl.phase.val ρ < 2 * Real.pi

/-- `-MAX_FREQ <= CL.FREQ <= MAX_FREQ` (10_state.md R21). -/
def FreqInRange (ρ : Nat → ℝ) (s : State) : Prop :=
  -maxFreqReal ρ s.params ≤ s.cl.freq.val ρ ∧ s.cl.freq.val ρ ≤ maxFreqReal ρ s.params

/-- `CL.ALPHA = alpha_of(LOOP_BW[CL.TRK])` and `CL.BETA = beta_of(LOOP_BW[CL.TRK])` (10_state.md R23). -/
def GainsFollowTracking (ρ : Nat → ℝ) (s : State) : Prop :=
  s.cl.alpha.val ρ = alphaReal ((loopBw s.params s.cl.trk).val ρ) ∧
    s.cl.beta.val ρ = betaReal ((loopBw s.params s.cl.trk).val ρ)

/-- `0 <= PM.COUNT <= MAX_SYNC_COUNT` (10_state.md R25). -/
def CountInRange (s : State) : Prop := s.pm.count.toNat ≤ s.params.maxSyncCount.toNat

/-- `PM.LEVEL = SYNC_LEVEL[PM.COUNT]` (41_sync_monitor.md R102). -/
def LevelFollowsCount (s : State) : Prop := s.pm.level = levelOf s.params s.pm.count

/-- The error record is the one of reset, or that of a reject (10_state.md R34, 60_exceptions.md R174). -/
def ErrorRecordLegal (s : State) : Prop :=
  s.err = { flag := false, cause := 0, cmd := 0 } ∨
    (s.err.flag = true ∧ s.err.cause = 1 ∧ decode s.err.cmd = none)

/-- What holds after every command (10_state.md R20 to R26, R34; 40_costas_loop.md R80; 41_sync_monitor.md R102). -/
structure Inv (ρ : Nat → ℝ) (s : State) : Prop where
  phase : PhaseInRange ρ s
  freq : FreqInRange ρ s
  gains : GainsFollowTracking ρ s
  count : CountInRange s
  level : LevelFollowsCount s
  err : ErrorRecordLegal s

/-- `n` commands of the same instruction, each with no operand, run one after another. -/
def repeatExec (i : Instr) : Nat → State → Result
  | 0, s => .next s
  | n + 1, s => andThen (exec i s) (repeatExec i n)

/-- The value at index `u` of an input sequence that is 0 before its start (42_hilbert_fir.md R107). -/
noncomputable def sampleAt (ρ : Nat → ℝ) (xs : List RealTerm) (u : Int) : ℝ :=
  if 0 ≤ u then (xs.getD u.toNat (.rat 0)).val ρ else 0

/-- `(-1)^m` (42_hilbert_fir.md R107). -/
def altSign (m : Nat) : ℝ := if m % 2 = 0 then 1 else -1

end Sys2Proof.Machine
end

