-- ==== Sys2Proof/Certificates/Slice0/Obligations.lean ====
section
/-!
DEFINITION. The statements for the provers. Where a statement speaks of a REAL register it speaks of the real number
the register's term stands for, for every valuation `ρ` of the atoms (log 1). A next state written as a record update
of `s` is the frame: every field it does not name is unchanged.
-/

open Sys2Proof Sys2Proof.Machine

/-! ### Encoding and the step (30_encoding.md, 60_exceptions.md) -/

/-- Words written out from the opcode map of 30_encoding.md R54, one or more of every unit. -/
def Obligations.CommandWordsDecodeToTheirCommands : Prop :=
  decode 0b0000000000000000 = some .clReset ∧ decode 0b0000010000000000 = some .clIncvec ∧
  decode 0b0000011000000010 = some (.clSettrk .fine) ∧ decode 0b0000011100000001 = some (.clSetauto true) ∧
  decode 0b0001001000000000 = some .pmLost ∧ decode 0b0010000100000000 = some .htPush ∧
  decode 0b0011000000000000 = some .glDec ∧ decode 0b0100000100000000 = some .stDec ∧
  decode 0b0101001000000000 = some .bpDec ∧ decode 0b0110000000000000 = some .trDec ∧
  decode 0b1111000100000000 = some .blkStat

/-- Decoding and encoding are inverse in both directions (30_encoding.md R50 to R57). -/
def Obligations.DecodeAndEncodeAgree : Prop :=
  (∀ i : Instr, decode (encode i) = some i) ∧ ∀ (w : CmdWord) (i : Instr), decode w = some i → encode i = w

/-- 30_encoding.md R57: at most one row matches a word, a word decodes exactly when a row matches it, and the words
that do are the 29 listed. -/
def Obligations.ExactlyTwentyNineWordsAreLegal : Prop :=
  legalWords.length = 29 ∧ legalWords.Nodup ∧
  ∀ w : CmdWord, (opcodeMap.filter (·.selects w)).length ≤ 1 ∧
    (∀ i, decode w = some i ↔ ∃ r ∈ opcodeMap, w &&& r.mask = r.pattern ∧ r.make w = i) ∧
    (decode w ≠ none ↔ w ∈ legalWords)

/-- A pending command whose word decodes to `i` is run: the step is exec of `i` with the command's operands on the
ports and the later inputs still pending (30_encoding.md R49). -/
def Obligations.StepRunsTheDecodedCommand : Prop :=
  ∀ (s : State) (w : CmdWord) (ports : Ports) (rest : List HostInput) (i : Instr),
    s.pending = .command w ports :: rest → decode w = some i →
    step s = exec i { s with ports := ports, pending := rest }

/-- 60_exceptions.md R174, R177: an illegal word, whatever its operands, gives STATUS = 1 with every other field 0,
records the word with cause 1, and changes no other register. -/
def Obligations.IllegalWordIsRejectedPrecisely : Prop :=
  ∀ (s : State) (w : CmdWord) (ports : Ports) (rest : List HostInput),
    s.pending = .command w ports :: rest → w ∉ legalWords →
    step s = .next { s with
      ports := ports
      pending := rest
      err := { flag := true, cause := 1, cmd := w }
      resp := some { status := true } }

/-- 60_exceptions.md R190: an idle block holds its state. 70_reset_and_hazards.md R191: the reset input leaves the
registers as BLK.RESET does; that it leaves no response is the model's choice (log 8). -/
def Obligations.IdleHoldsAndResetInputResets : Prop :=
  (∀ s : State, s.pending = [] → step s = .next s) ∧
  ∀ (s : State) (rest : List HostInput), s.pending = .resetInput :: rest →
    ∃ t u, step s = .next t ∧ exec .blkReset s = .next u ∧ t = { u with pending := rest, resp := none }

/-- Every command, presented with operands that 70_reset_and_hazards.md R193 (a) allows, completes with STATUS = 0
(60_exceptions.md R173); with a non-finite operand on a port it reads it is refused. -/
def Obligations.CommandsCompleteExactlyOnFiniteOperands : Prop :=
  ∀ (i : Instr) (s : State),
    (i.wellFormed s.ports = true → ∃ t r, exec i s = .next t ∧ t.resp = some r ∧ r.status = false) ∧
    (i.wellFormed s.ports = false → exec i s = .refused .nonFiniteOperand)

/-! ### Reset and the invariants (10_state.md, 70_reset_and_hazards.md) -/

/-- The reset column of 10_state.md R36, for an instance with any parameters. -/
def Obligations.ResetLeavesTheStatedValues : Prop :=
  State.reset = State.initial bootParams ∧
  ∀ (ρ : Nat → ℝ) (p : Params), ∃ s : State, s = State.initial p ∧ s.params = p ∧
    s.cl.phase.val ρ = 0 ∧ s.cl.freq.val ρ = 0 ∧ s.cl.trk = .searching ∧
    s.cl.alpha.val ρ = alphaReal (p.bwSearching.val ρ) ∧ s.cl.beta.val ρ = betaReal (p.bwSearching.val ρ) ∧
    s.cl.auto = false ∧ s.pm.count = 0 ∧ s.pm.level = .searching ∧
    (∀ j ≤ 46, (s.ht.tap j).val ρ = 0) ∧ s.ht.sign = false ∧
    s.err.flag = false ∧ s.err.cause = 0 ∧ s.err.cmd = 0

/-- The invariants of 10_state.md R20 to R26 and R34 hold at reset, for parameters that 00_scope.md R8 allows; and the
parameters of State.reset are such parameters, whatever the model's opaque constants are (log 2), so that they hold at
State.reset. -/
def Obligations.ResetMeetsTheRegisterInvariant : Prop :=
  (∀ (ρ : Nat → ℝ) (p : Params), p.RatesPositive ρ → p.SyncTableValid → Inv ρ (State.initial p)) ∧
  ∀ ρ : Nat → ℝ, State.reset.params.Constrained ρ ∧ Inv ρ State.reset

/-- 40_costas_loop.md R80, 41_sync_monitor.md R102: from every state that meets the invariants, every step that goes
on keeps them, and keeps the parameters. -/
def Obligations.EveryStepKeepsTheRegisterInvariant : Prop :=
  ∀ (ρ : Nat → ℝ) (s t : State), s.params.RatesPositive ρ → s.params.SyncTableValid → Inv ρ s →
    step s = .next t → Inv ρ t ∧ t.params = s.params

/-- The "written by" column of 10_state.md R36, with BLK.RESET (70_reset_and_hazards.md R191) and CL.RESET of CL.AUTO
(40_costas_loop.md R70): no other command changes a register, and none changes a parameter. -/
def Obligations.RegistersChangeOnlyByTheirWriters : Prop :=
  ∀ (i : Instr) (s t : State), exec i s = .next t →
    t.params = s.params ∧
    (t.cl.phase ≠ s.cl.phase → i ∈ [Instr.clInc, .clAdj, .clIncvec, .clReset, .blkReset]) ∧
    (t.cl.freq ≠ s.cl.freq → i ∈ [Instr.clAdj, .clCorr, .clReset, .blkReset]) ∧
    ((t.cl.trk, t.cl.alpha, t.cl.beta) ≠ (s.cl.trk, s.cl.alpha, s.cl.beta) →
      i ∈ [Instr.clReset, .pmDet, .pmLost, .pmReset, .blkReset] ∨ (∃ x, i = .clSettrk x) ∨
        (i = .clAdj ∧ s.cl.auto = true)) ∧
    (t.cl.auto ≠ s.cl.auto → i ∈ [Instr.clReset, .blkReset] ∨ ∃ e, i = .clSetauto e) ∧
    (t.pm ≠ s.pm → i ∈ [Instr.pmDet, .pmLost, .pmReset, .blkReset]) ∧
    (t.ht ≠ s.ht → i ∈ [Instr.htReset, .htPush, .blkReset]) ∧
    (t.err ≠ s.err → i = .blkReset)

/-- 20_memory.md R45: the decoders and the status reads are idempotent; issued twice in a row they give the same
response and the same state. -/
def Obligations.ReadsAndDecodesAreIdempotent : Prop :=
  ∀ i ∈ [Instr.glDec, .stExt, .stDec, .bpExt, .bpDeint, .bpDec, .trDec, .clVec, .clStat, .pmStat, .blkStat],
    ∀ s : State, ∃ t, exec i s = .next t ∧ exec i t = .next t

/-- 10_state.md R31: a command of GL, ST, BP or TR changes no register, and its response is a function of its operands
and the parameters alone. -/
def Obligations.DecoderUnitsHoldNoState : Prop :=
  ∀ i ∈ [Instr.glDec, .stExt, .stDec, .bpExt, .bpDeint, .bpDec, .trDec],
    ∀ (p : Params) (ports : Ports), ∃ r : Response, ∀ s : State, s.params = p → s.ports = ports →
      exec i s = .next { s with resp := some r }

/-! ### The Costas loop (40_costas_loop.md) -/

/-- R66: the gains of every positive bandwidth, by its formulas; both are positive because den(B) > 1; and its worked
value at B = 0.1. -/
def Obligations.GainsFollowTheFormulas : Prop :=
  (∀ (ρ : Nat → ℝ) (b : RealTerm), 0 < b.val ρ →
    1 < 1 + 2 * (Real.sqrt 2 / 2) * b.val ρ + b.val ρ * b.val ρ ∧
    (alphaOf b).val ρ = 4 * (Real.sqrt 2 / 2) * b.val ρ / (1 + 2 * (Real.sqrt 2 / 2) * b.val ρ + b.val ρ * b.val ρ) ∧
    (betaOf b).val ρ = 4 * b.val ρ * b.val ρ / (1 + 2 * (Real.sqrt 2 / 2) * b.val ρ + b.val ρ * b.val ρ) ∧
    0 < (alphaOf b).val ρ ∧ 0 < (betaOf b).val ρ) ∧
  |alphaReal (1 / 10) - 0.245646574942| ≤ 1 / 10 ^ 11 ∧ |betaReal (1 / 10) - 0.0347396717833| ≤ 1 / 10 ^ 11

/-- R67: normalize_phase does what its two loops do, one turn at a time, and where its result lies. -/
def Obligations.NormalizePhaseFollowsTheLoops : Prop :=
  ∀ p : ℝ,
    (2 * Real.pi ≤ p → normalizePhase p = normalizePhase (p - 2 * Real.pi) ∧
      0 ≤ normalizePhase p ∧ normalizePhase p < 2 * Real.pi) ∧
    (p ≤ -(2 * Real.pi) → normalizePhase p = normalizePhase (p + 2 * Real.pi) ∧
      -(2 * Real.pi) < normalizePhase p ∧ normalizePhase p ≤ 0) ∧
    (-(2 * Real.pi) < p → p < 2 * Real.pi → normalizePhase p = p)

/-- R68: the clamp keeps a frequency within the bounds, bounds included, and takes any other to the nearer bound. -/
def Obligations.FrequencyClampTakesTheNearerBound : Prop :=
  ∀ bound f : ℝ, 0 ≤ bound →
    (-bound ≤ f → f ≤ bound → clampFreqReal bound f = f) ∧
    (bound < f → clampFreqReal bound f = bound) ∧ (f < -bound → clampFreqReal bound f = -bound)

/-- R70: CL.RESET. -/
def Obligations.ClResetRestartsTheLoop : Prop :=
  ∀ (ρ : Nat → ℝ) (s : State), ∃ t, exec .clReset s = .next t ∧
    t.cl.phase.val ρ = 0 ∧ t.cl.freq.val ρ = 0 ∧ t.cl.auto = false ∧ t.cl.trk = .searching ∧
    t.cl.alpha.val ρ = alphaReal (s.params.bwSearching.val ρ) ∧
    t.cl.beta.val ρ = betaReal (s.params.bwSearching.val ρ) ∧
    t = { s with cl := t.cl, resp := some {} }

/-- R72: CL.INC. -/
def Obligations.ClIncAdvancesThePhase : Prop :=
  ∀ (ρ : Nat → ℝ) (s : State), ∃ t, exec .clInc s = .next t ∧
    t.cl.phase.val ρ = normalizePhase (s.cl.phase.val ρ + s.cl.freq.val ρ) ∧
    t = { s with cl := { s.cl with phase := t.cl.phase }, resp := some {} }

/-- R73: CL.ADJ, for every finite phase error. With CL.AUTO = 1 it ends with set_tracking of some tracking state
(R83), which is left open; the counter of the free values used is the model's (log 7). -/
def Obligations.ClAdjAppliesThePhaseError : Prop :=
  ∀ (ρ : Nat → ℝ) (s : State) (e : RealTerm), s.ports.opa = .finite e →
    ∃ t, exec .clAdj s = .next t ∧
      t.cl.phase.val ρ = normalizePhase (s.cl.phase.val ρ + (s.cl.freq.val ρ + s.cl.beta.val ρ * e.val ρ) +
        s.cl.alpha.val ρ * e.val ρ) ∧
      t.cl.freq.val ρ = clampFreqReal (maxFreqReal ρ s.params) (s.cl.freq.val ρ + s.cl.beta.val ρ * e.val ρ) ∧
      (s.cl.auto = false →
        t = { s with cl := { s.cl with phase := t.cl.phase, freq := t.cl.freq }, resp := some {} }) ∧
      (s.cl.auto = true →
        t.cl.alpha.val ρ = alphaReal ((loopBw s.params t.cl.trk).val ρ) ∧
        t.cl.beta.val ρ = betaReal ((loopBw s.params t.cl.trk).val ρ) ∧ t.cl.auto = true ∧
        t = { s with cl := t.cl, draws := t.draws, resp := some {} })

/-- R74: CL.VEC; the vector is a unit vector. -/
def Obligations.ClVecReadsTheCarrierVector : Prop :=
  ∀ (ρ : Nat → ℝ) (s : State), ∃ x y, exec .clVec s = .next { s with resp := some { ra := x, rb := y } } ∧
    x.val ρ = Real.cos (s.cl.phase.val ρ) ∧ y.val ρ = Real.sin (s.cl.phase.val ρ) ∧
    x.val ρ * x.val ρ + y.val ρ * y.val ρ = 1

/-- R75: CL.INCVEC is CL.INC followed by CL.VEC; the vector is of the phase after the increment. -/
def Obligations.ClIncvecIsIncThenVec : Prop :=
  ∀ (ρ : Nat → ℝ) (s : State), ∃ t u x y, exec .clInc s = .next u ∧ exec .clVec u = .next t ∧
    exec .clIncvec s = .next t ∧
    t = { s with cl := { s.cl with phase := t.cl.phase }, resp := some { ra := x, rb := y } } ∧
    t.cl.phase.val ρ = normalizePhase (s.cl.phase.val ρ + s.cl.freq.val ρ) ∧
    x.val ρ = Real.cos (t.cl.phase.val ρ) ∧ y.val ρ = Real.sin (t.cl.phase.val ρ)

/-- R76: CL.CORR, for every finite correction: the sum, moved by whole steps of 2*MAX_FREQ to the first value within
the bounds. -/
def Obligations.ClCorrWrapsTheFrequency : Prop :=
  ∀ (ρ : Nat → ℝ) (s : State) (c : RealTerm), s.params.RatesPositive ρ → s.ports.opa = .finite c →
    ∃ t, exec .clCorr s = .next t ∧
      t = { s with cl := { s.cl with freq := t.cl.freq }, resp := some {} } ∧
      (-maxFreqReal ρ s.params ≤ s.cl.freq.val ρ + c.val ρ → s.cl.freq.val ρ + c.val ρ ≤ maxFreqReal ρ s.params →
        t.cl.freq.val ρ = s.cl.freq.val ρ + c.val ρ) ∧
      (maxFreqReal ρ s.params < s.cl.freq.val ρ + c.val ρ →
        -maxFreqReal ρ s.params < t.cl.freq.val ρ ∧ t.cl.freq.val ρ ≤ maxFreqReal ρ s.params ∧
        ∃ k : ℕ, t.cl.freq.val ρ = s.cl.freq.val ρ + c.val ρ - 2 * maxFreqReal ρ s.params * k) ∧
      (s.cl.freq.val ρ + c.val ρ < -maxFreqReal ρ s.params →
        -maxFreqReal ρ s.params ≤ t.cl.freq.val ρ ∧ t.cl.freq.val ρ < maxFreqReal ρ s.params ∧
        ∃ k : ℕ, t.cl.freq.val ρ = s.cl.freq.val ρ + c.val ρ + 2 * maxFreqReal ρ s.params * k)

/-- R77: CL.SETTRK, for each of the four states. -/
def Obligations.ClSettrkSetsStateAndGains : Prop :=
  ∀ (ρ : Nat → ℝ) (s : State) (x : TrackingState), ∃ t, exec (.clSettrk x) s = .next t ∧
    t.cl.trk = x ∧ t.cl.alpha.val ρ = alphaReal ((loopBw s.params x).val ρ) ∧
    t.cl.beta.val ρ = betaReal ((loopBw s.params x).val ρ) ∧
    t = { s with cl := { s.cl with trk := x, alpha := t.cl.alpha, beta := t.cl.beta }, resp := some {} }

/-- R78: CL.SETAUTO. -/
def Obligations.ClSetautoWritesTheEnable : Prop :=
  ∀ (s : State) (e : Bool),
    exec (.clSetauto e) s = .next { s with cl := { s.cl with auto := e }, resp := some {} }

/-- R79: CL.STAT, with the port code of the tracking state written out (10_state.md R22). -/
def Obligations.ClStatReadsTheLoopRegisters : Prop :=
  ∀ s : State, exec .clStat s = .next { s with resp := some {
    ra := s.cl.phase
    rb := s.cl.freq
    rc := s.cl.alpha
    rd := s.cl.beta
    rtrk := (match s.cl.trk with | .searching => 0 | .coarse => 1 | .fine => 2 | .locked => 3)
    rflag := s.cl.auto } }

/-- R81: N commands CL.INC and no other. -/
def Obligations.FreeRunningPhaseIsLinear : Prop :=
  ∀ (ρ : Nat → ℝ) (n : Nat) (s : State), PhaseInRange ρ s →
    ∃ t, repeatExec .clInc n s = .next t ∧ PhaseInRange ρ t ∧ t.cl.freq = s.cl.freq ∧
      ∃ k : ℤ, t.cl.phase.val ρ = s.cl.phase.val ρ + n * s.cl.freq.val ρ - 2 * Real.pi * k

/-- 30_encoding.md R62: cl.despin n is n CL.INCVEC; its m-th pair is the carrier at m + 1 samples after the start. -/
def Obligations.DespinFollowsTheCarrier : Prop :=
  ∀ (ρ : Nat → ℝ) (n : Nat) (s : State), ∃ t pairs, clDespin n s = .next (t, pairs) ∧ pairs.length = n ∧
    ∀ (m : Nat) (h : m < pairs.length),
      pairs[m].1.val ρ = Real.cos (s.cl.phase.val ρ + (m + 1) * s.cl.freq.val ρ) ∧
      pairs[m].2.val ρ = Real.sin (s.cl.phase.val ρ + (m + 1) * s.cl.freq.val ρ)

/-! ### The sync monitor (41_sync_monitor.md) -/

/-- R97: PM.RESET. -/
def Obligations.PmResetForcesSearching : Prop :=
  ∀ (ρ : Nat → ℝ) (s : State), ∃ t, exec .pmReset s = .next t ∧
    t.cl.trk = .searching ∧ t.cl.alpha.val ρ = alphaReal (s.params.bwSearching.val ρ) ∧
    t.cl.beta.val ρ = betaReal (s.params.bwSearching.val ρ) ∧
    t = { s with
      cl := { s.cl with trk := .searching, alpha := t.cl.alpha, beta := t.cl.beta }
      pm := { count := 0, level := .searching }
      resp := some {} }

/-- R98 with R91, R92 and R96: PM.DET. -/
def Obligations.PmDetCountsUpAndAppliesTheLevel : Prop :=
  ∀ (ρ : Nat → ℝ) (s : State), s.params.SyncTableValid → ∃ t, exec .pmDet s = .next t ∧
    t.pm.count.toNat = min (s.pm.count.toNat + 1) s.params.maxSyncCount.toNat ∧
    s.params.syncLevel[t.pm.count.toNat]? = some t.pm.level ∧
    (t.pm.level = s.pm.level → t.cl = s.cl) ∧
    (t.pm.level ≠ s.pm.level → t.cl.trk = t.pm.level ∧
      t.cl.alpha.val ρ = alphaReal ((loopBw s.params t.pm.level).val ρ) ∧
      t.cl.beta.val ρ = betaReal ((loopBw s.params t.pm.level).val ρ)) ∧
    t = { s with
      cl := { s.cl with trk := t.cl.trk, alpha := t.cl.alpha, beta := t.cl.beta }
      pm := t.pm
      resp := some {} }

/-- R99 with R91, R92 and R96: PM.LOST; a count of 0 or 1 goes to 0. -/
def Obligations.PmLostCountsDownAndAppliesTheLevel : Prop :=
  ∀ (ρ : Nat → ℝ) (s : State), s.params.SyncTableValid → ∃ t, exec .pmLost s = .next t ∧
    t.pm.count.toNat = min (s.pm.count.toNat - 2) s.params.maxSyncCount.toNat ∧
    s.params.syncLevel[t.pm.count.toNat]? = some t.pm.level ∧
    (t.pm.level = s.pm.level → t.cl = s.cl) ∧
    (t.pm.level ≠ s.pm.level → t.cl.trk = t.pm.level ∧
      t.cl.alpha.val ρ = alphaReal ((loopBw s.params t.pm.level).val ρ) ∧
      t.cl.beta.val ρ = betaReal ((loopBw s.params t.pm.level).val ρ)) ∧
    t = { s with
      cl := { s.cl with trk := t.cl.trk, alpha := t.cl.alpha, beta := t.cl.beta }
      pm := t.pm
      resp := some {} }

/-- R94: no result of PM.DET or PM.LOST depends on OPN. -/
def Obligations.SyncEventArgumentsAreIgnored : Prop :=
  ∀ i ∈ [Instr.pmDet, .pmLost], ∀ (s : State) (n : BitVec 32),
    ∃ t, exec i s = .next t ∧
      exec i { s with ports := { s.ports with opn := n } } = .next { t with ports := { t.ports with opn := n } }

/-- R100: PM.FERR, for every finite measurement. -/
def Obligations.PmFerrGatesByTheThreshold : Prop :=
  ∀ (s : State) (m : RealTerm), s.ports.opa = .finite m →
    exec .pmFerr s = .next { s with resp := some (
      if s.pm.count.toNat > s.params.syncReportThreshold then { rflag := true, ra := m }
      else { rflag := false, ra := .rat 0 }) }

/-- R101: PM.STAT, with the port code of the level written out (10_state.md R22). -/
def Obligations.PmStatReadsTheMonitorRegisters : Prop :=
  ∀ s : State, exec .pmStat s = .next { s with resp := some {
    rn := s.pm.count
    rtrk := (match s.pm.level with | .searching => 0 | .coarse => 1 | .fine => 2 | .locked => 3) } }

/-- 70_reset_and_hazards.md R198 (a): a tracking state set directly survives a sync event that maps to the monitor's
own level, and is overridden by one that maps to another. -/
def Obligations.AmongSyncEventsDirectTrackingYieldsOnlyToALevelChange : Prop :=
  ∀ i ∈ [Instr.pmDet, .pmLost], ∀ (s : State) (x : TrackingState),
    ∃ t u, exec (.clSettrk x) s = .next t ∧ t.pm.level = s.pm.level ∧ exec i t = .next u ∧
      (u.pm.level = s.pm.level → u.cl.trk = x ∧ u.cl = t.cl) ∧
      (u.pm.level ≠ s.pm.level → u.cl.trk = u.pm.level ∧ u.cl.phase = s.cl.phase ∧ u.cl.freq = s.cl.freq)

/-! ### The Hilbert FIR (42_hilbert_fir.md) -/

/-- R105: HT.RESET. -/
def Obligations.HtResetClearsTheDelayLine : Prop :=
  ∀ (ρ : Nat → ℝ) (s : State), ∃ t, exec .htReset s = .next t ∧
    (∀ j ≤ 46, (t.ht.tap j).val ρ = 0) ∧ t.ht.sign = false ∧ t = { s with ht := t.ht, resp := some {} }

/-- R106: HT.PUSH, for every finite pair. -/
def Obligations.HtPushFiltersOnePair : Prop :=
  ∀ (ρ : Nat → ℝ) (s : State) (a b : RealTerm), s.ports.opa = .finite a → s.ports.opb = .finite b →
    ∃ t x y, exec .htPush s = .next t ∧ t = { s with ht := t.ht, resp := some { ra := x, rb := y } } ∧
      t.ht.tap 0 = b ∧ t.ht.tap 1 = a ∧ (∀ j, 2 ≤ j → j ≤ 46 → t.ht.tap j = s.ht.tap (j - 2)) ∧
      t.ht.sign = !s.ht.sign ∧
      x.val ρ = (if s.ht.sign then -1 else 1) * (t.ht.tap 23).val ρ ∧
      y.val ρ = (if s.ht.sign then -1 else 1) *
        ∑ k ∈ Finset.range 24, (quadCoeff s.params k).val ρ * (t.ht.tap (2 * k)).val ρ

/-- R104: the 24 coefficients from the even taps, and their antisymmetry for a symmetric prototype (R103). -/
def Obligations.QuadratureCoefficientsFromThePrototype : Prop :=
  ∀ (ρ : Nat → ℝ) (p : Params),
    (∀ k ≤ 11, (quadCoeff p k).val ρ = -(2 * (halfband p (2 * k)).val ρ)) ∧
    (∀ k, 12 ≤ k → k ≤ 23 → (quadCoeff p k).val ρ = 2 * (halfband p (2 * k)).val ρ) ∧
    (p.HalfbandSymmetric ρ → ∀ k ≤ 23, (quadCoeff p (23 - k)).val ρ = -(quadCoeff p k).val ρ)

/-- R107: the closed form of the outputs since the last HT.RESET. -/
def Obligations.FilterOutputsHaveTheClosedForm : Prop :=
  ∀ (ρ : Nat → ℝ) (s : State) (xs : List RealTerm), xs.length % 2 = 0 →
    ∃ s0 t outs, exec .htReset s = .next s0 ∧ pushSamples (xs.map .finite) s0 = .next (t, outs) ∧
      2 * outs.length = xs.length ∧
      ∀ (m : Nat) (h : m < outs.length),
        outs[m].1.val ρ = altSign m * sampleAt ρ xs (2 * m - 22) ∧
        outs[m].2.val ρ = altSign m *
          ∑ k ∈ Finset.range 24, (quadCoeff s.params k).val ρ * sampleAt ρ xs (2 * m + 1 - 2 * k)

/-- R108, R109: the outputs of two blocks are the outputs of their concatenation; the timestamp passes through; an odd
block is refused. -/
def Obligations.FilterBlocksMaySplitAnywhereEven : Prop :=
  (∀ (s : State) (ts : Nat) (xs ys : List RealTerm), xs.length % 2 = 0 → ys.length % 2 = 0 →
    ∃ t u outs outs', htFilter (xs.map .finite) ts s = .next (t, ts, outs) ∧
      htFilter (ys.map .finite) ts t = .next (u, ts, outs') ∧
      htFilter ((xs ++ ys).map .finite) ts s = .next (u, ts, outs ++ outs')) ∧
  ∀ (s : State) (ts : Nat) (xs : List RealPort), xs.length % 2 = 1 → htFilter xs ts s = .refused .oddFilterBlock

/-! ### The Golay decoder (43_golay24.md) -/

/-- R124: GL.DEC. -/
def Obligations.GlDecChecksAndCorrects : Prop :=
  ∀ s : State, ∃ word fec, exec .glDec s = .next { s with resp := some { rw24 := word, rfec := fec } } ∧
    (golaySyndrome s.params s.ports.w24 = 0 → word = s.ports.w24 ∧ fec = 0) ∧
    (golaySyndrome s.params s.ports.w24 ≠ 0 →
      (∃ e : Word24, 1 ≤ wt e ∧ wt e ≤ s.params.golayRadius ∧
        golaySyndrome s.params e = golaySyndrome s.params s.ports.w24) →
      ∃ e : Word24, 1 ≤ wt e ∧ wt e ≤ s.params.golayRadius ∧
        golaySyndrome s.params e = golaySyndrome s.params s.ports.w24 ∧ word = s.ports.w24 ^^^ e ∧ fec = 1) ∧
    (golaySyndrome s.params s.ports.w24 ≠ 0 →
      (¬ ∃ e : Word24, 1 ≤ wt e ∧ wt e ≤ s.params.golayRadius ∧
        golaySyndrome s.params e = golaySyndrome s.params s.ports.w24) →
      word = s.ports.w24 ∧ fec = 2)

/-- R119, R121: the syndrome is 0 exactly on the codewords, and that of a codeword with an error is the error's. -/
def Obligations.SyndromeDependsOnTheErrorAlone : Prop :=
  ∀ p : Params,
    (∀ r : Word24, golaySyndrome p r = 0 ↔ ∃ info, r = golayEncode p info) ∧
    ∀ (info : BitVec 12) (e : Word24), golaySyndrome p (golayEncode p info ^^^ e) = golaySyndrome p e

/-- R125: what the decoder does with a codeword and an error of each weight, for a code that meets R120 and has
minimum distance at least `d`. -/
def Obligations.GolayCorrectsUpToItsRadius : Prop :=
  ∀ (p : Params) (d : Nat), p.GolayValid → (∀ info : BitVec 12, info ≠ 0 → d ≤ wt (golayEncode p info)) →
    ∀ (info : BitVec 12) (e : Word24),
      (wt e = 0 → golayDecode p (golayEncode p info ^^^ e) = (golayEncode p info, 0)) ∧
      (1 ≤ wt e → wt e ≤ p.golayRadius → golayDecode p (golayEncode p info ^^^ e) = (golayEncode p info, 1)) ∧
      (p.golayRadius < wt e → wt e + 1 + p.golayRadius ≤ d →
        golayDecode p (golayEncode p info ^^^ e) = (golayEncode p info ^^^ e, 2))

/-! ### The slot-type extractor (44_slot_type.md) -/

/-- R133, R134: ST.EXT, and only the slot-type bits of the burst count. -/
def Obligations.StExtGathersTheSlotBits : Prop :=
  (∀ s : State, ∃ word, exec .stExt s = .next { s with resp := some { rw24 := word } } ∧
    (∀ i < 4, bit word i = false) ∧
    ∀ (k : Nat) (h : k < 20), bit word (4 + k) = bit s.ports.burst s.params.slotTypeIndex[k].val) ∧
  ∀ (s : State) (b : Burst), SameSlotBits s.params s.ports.burst b →
    ∃ r, exec .stExt s = .next { s with resp := some r } ∧
      exec .stExt { s with ports := { s.ports with burst := b } } =
        .next { s with ports := { s.ports with burst := b }, resp := some r }

/-- R135 with R136 and R137: ST.DEC is GL.DEC on the slot buffer, with the fields read from its result. -/
def Obligations.StDecReadsTheCorrectedFields : Prop :=
  ∀ s : State, ∃ x g u r,
    exec .stExt s = .next { s with resp := some x } ∧
    exec .glDec { s with ports := { s.ports with w24 := x.rw24 } } = .next u ∧ u.resp = some g ∧
    exec .stDec s = .next { s with resp := some r } ∧
    r = { rw24 := g.rw24, rfec := g.rfec, rcc := r.rcc, rdt := r.rdt, rcorr := r.rcorr, rvalid := r.rvalid } ∧
    (r.rvalid = true ↔ g.rfec.toNat ≤ 1) ∧
    (∀ i < 4, bit r.rcc i = bit g.rw24 (4 + i)) ∧
    (r.rvalid = true → bit r.rdt 0 = false ∧ (∀ i < 4, bit r.rdt (1 + i) = bit g.rw24 (8 + i)) ∧
      (r.rcorr = true ↔ g.rfec = 1)) ∧
    (r.rvalid = false → r.rdt = 16 ∧ r.rcorr = false)

/-- R140 at radius 1: a burst whose slot bits are a codeword decodes; with one slot-bit error it decodes to the same
color code and data type; with 2 up to `d - 2` errors it is invalid with data type UNKNOWN. -/
def Obligations.SlotTypeErrorsAreCorrectedOrFlagged : Prop :=
  ∀ (s s' : State) (d : Nat) (info : BitVec 12), s.params.GolayValid → s.params.golayRadius = 1 →
    (∀ j : BitVec 12, j ≠ 0 → d ≤ wt (golayEncode s.params j)) → s'.params = s.params →
    slotBuffer s.params s.ports.burst = golayEncode s.params info →
    ∃ r r', exec .stDec s = .next { s with resp := some r } ∧ exec .stDec s' = .next { s' with resp := some r' } ∧
      r.rvalid = true ∧ r.rcorr = false ∧
      (wt (slotBuffer s.params s.ports.burst ^^^ slotBuffer s.params s'.ports.burst) ≤ 1 →
        r'.rvalid = true ∧ r'.rcc = r.rcc ∧ r'.rdt = r.rdt) ∧
      (2 ≤ wt (slotBuffer s.params s.ports.burst ^^^ slotBuffer s.params s'.ports.burst) →
        wt (slotBuffer s.params s.ports.burst ^^^ slotBuffer s.params s'.ports.burst) + 2 ≤ d →
        r'.rvalid = false ∧ r'.rdt = 16)

/-! ### BPTC(196,96) (45_bptc_196_96.md) -/

/-- R143, R144: BP.EXT. -/
def Obligations.BpExtTakesTheTwoRanges : Prop :=
  ∀ s : State, ∃ v, exec .bpExt s = .next { s with resp := some { rv196 := v } } ∧
    (∀ q < 98, bit v q = bit s.ports.burst (24 + q)) ∧
    ∀ q, 98 ≤ q → q < 196 → bit v q = bit s.ports.burst (190 + (q - 98))

/-- R146: BP.DEINT, and the number of ones it keeps where BPTC_INTERLEAVE is a permutation. -/
def Obligations.BpDeintPermutesTheBlock : Prop :=
  ∀ s : State, ∃ v, exec .bpDeint s = .next { s with resp := some { rv196 := v } } ∧
    (∀ (i : Nat) (h : i < 196), bit v i = bit s.ports.v196 s.params.bptcInterleave[i].val) ∧
    (s.params.BptcInterleaveValid → wt v = wt s.ports.v196)

/-- R150: what the repair of one line does, for codes that meet R148 and R149. -/
def Obligations.LineRepairFlipsTheNamedPosition : Prop :=
  ∀ (p : Params) (d : Block196),
    (∀ r < 13, (syndrome15 p (rowOf d r) = 0 → rowFix p d r = d) ∧
      (p.RowCodeValid → ∀ j < 15, syndrome15 p (rowOf d r) = syndrome15 p (unitBit 15 j) →
        rowFix p d r = flipBit d (1 + 15 * r + j)) ∧
      ((∀ j < 15, syndrome15 p (rowOf d r) ≠ syndrome15 p (unitBit 15 j)) → rowFix p d r = d)) ∧
    ∀ c < 15, (syndrome13 p (colOf d c) = 0 → colFix p d c = d) ∧
      (p.ColCodeValid → ∀ i < 13, syndrome13 p (colOf d c) = syndrome13 p (unitBit 13 i) →
        colFix p d c = flipBit d (1 + 15 * i + c)) ∧
      ((∀ i < 13, syndrome13 p (colOf d c) ≠ syndrome13 p (unitBit 13 i)) → colFix p d c = d)

/-- R152 with R153 and R154: BP.DEC: the payload of the repaired block, the count, the sentinel -1 and the valid bit;
bit 0 of the block is never changed (R151). -/
def Obligations.BpDecReturnsPayloadAndCount : Prop :=
  ∀ s : State, ∃ v d out r,
    exec .bpExt s = .next { s with resp := some { rv196 := v } } ∧
    d = deinterleave s.params v ∧ out = (bptcRepair s.params d).1 ∧
    exec .bpDec s = .next { s with resp := some r } ∧
    r = { rp96 := r.rp96, rcount := r.rcount, rvalid := r.rvalid } ∧
    (∀ k < 96, bit r.rp96 k = bit out (1 + 15 * ((k + 3) / 11) + (k + 3) % 11)) ∧
    (r.rvalid = true ↔ (∀ q < 13, syndrome15 s.params (rowOf out q) = 0) ∧
      ∀ c < 15, syndrome13 s.params (colOf out c) = 0) ∧
    (r.rvalid = true → r.rcount.toInt = wt (out ^^^ d) ∧ wt (out ^^^ d) ≤ 195) ∧
    (r.rvalid = false → r.rcount.toInt = -1) ∧ bit out 0 = bit d 0

/-- R156 (a): the round trip, for any Hamming matrices and every payload. -/
def Obligations.BptcRoundTripReturnsThePayload : Prop :=
  ∀ (s : State) (m : BitVec 96) (other : Burst), s.params.BptcInterleaveValid →
    s.ports.burst = burstOf (bptcEncode s.params m) other →
    exec .bpDec s = .next { s with resp := some { rp96 := m, rcount := 0, rvalid := true } }

/-- R156 (b): one error at any of D[1..195] is repaired, with count 1. -/
def Obligations.BptcRepairsOneError : Prop :=
  ∀ (p : Params) (m : BitVec 96) (i : Nat), p.RowCodeValid → 1 ≤ p.bptcMaxPasses → 1 ≤ i → i < 196 →
    bptcRepair p (flipBit (bptcEncodedMatrix p m) i) = (bptcEncodedMatrix p m, 1)

/-- R156 (c): two errors anywhere in D[1..195] are repaired, with count 2. -/
def Obligations.BptcRepairsTwoErrors : Prop :=
  ∀ (p : Params) (m : BitVec 96) (i j : Nat), p.RowCodeValid → p.ColCodeValid → 1 ≤ p.bptcMaxPasses →
    1 ≤ i → i < j → j < 196 →
    bptcRepair p (flipBit (flipBit (bptcEncodedMatrix p m) i) j) = (bptcEncodedMatrix p m, 2)

/-- R144, R152; 46_trellis_3_4.md R171: burst bits outside 24..121 and 190..287 do not affect BP.EXT, BP.DEC or
TR.DEC. -/
def Obligations.PayloadCommandsIgnoreOtherBurstBits : Prop :=
  ∀ i ∈ [Instr.bpExt, .bpDec, .trDec], ∀ (s : State) (b : Burst), SamePayloadBits s.ports.burst b →
    ∃ r, exec i s = .next { s with resp := some r } ∧
      exec i { s with ports := { s.ports with burst := b } } =
        .next { s with ports := { s.ports with burst := b }, resp := some r }

/-! ### The trellis decoder (46_trellis_3_4.md) -/

/-- R171: TR.DEC, with the failure test of VITERBI_FAIL_METRIC, `none` being infinity. -/
def Obligations.TrDecReportsPayloadAndMetric : Prop :=
  ∀ s : State, ∃ v r metric,
    exec .bpExt s = .next { s with resp := some { rv196 := v } } ∧
    exec .trDec s = .next { s with resp := some r } ∧
    r = { rp144 := (viterbi s.params (receivedPoints s.params v)).1, rcount := r.rcount, rvalid := r.rvalid } ∧
    metric = (viterbi s.params (receivedPoints s.params v)).2 ∧
    (r.rvalid = true ↔ ∀ bound, s.params.viterbiFailMetric = some bound → metric ≤ bound) ∧
    (r.rvalid = true → r.rcount.toInt = metric) ∧ (r.rvalid = false → r.rcount.toInt = -1)

/-- R162, R163: received dibit k stands at place TRELLIS_INTERLEAVE(k), and point j is the dibits 2j and 2j+1. -/
def Obligations.ReceivedPointsFollowTheInterleave : Prop :=
  ∀ (p : Params) (v : Block196), p.trellisInterleave.toList.Nodup →
    (receivedPoints p v).length = 49 ∧
    ∀ (k : Nat) (h : k < 98), ∀ b < 2,
      bit ((receivedPoints p v).getD (p.trellisInterleave[k].val / 2) 0) (2 * (p.trellisInterleave[k].val % 2) + b) =
        bit v (2 * k + b)

/-- R170: the metric returned is the number of bits in which the received points differ from the encoding of the
payload returned, and no payload is nearer. -/
def Obligations.ViterbiReturnsTheNearestPayload : Prop :=
  ∀ (p : Params) (rs : List (BitVec 4)), rs.length = 49 →
    (viterbi p rs).2 = pointDistance rs (sentPatterns p 0 (dataTribits (viterbi p rs).1)) ∧
    (∀ m : BitVec 144, (viterbi p rs).2 ≤ pointDistance rs (sentPatterns p 0 (dataTribits m))) ∧
    (viterbi p rs).2 ≤ 196

/-- R165 with R170: what the transmitter's encoder sends decodes to the data, with count 0, for tables that meet
00_scope.md R8 and R169. -/
def Obligations.TrellisRoundTripReturnsTheData : Prop :=
  ∀ (s : State) (m : BitVec 144) (other : Burst), s.params.TrellisTablesValid → s.params.TrellisStatesSeparate →
    s.ports.burst = burstOf (trellisEncode s.params m) other →
    exec .trDec s = .next { s with resp := some { rp144 := m, rcount := 0, rvalid := true } }

/-! ### The block (60_exceptions.md, 70_reset_and_hazards.md) and the host's dispatch -/

/-- 70_reset_and_hazards.md R191: BLK.RESET: every register at its reset value, and equal to CL.RESET, PM.RESET and
HT.RESET in any order with ERR cleared. -/
def Obligations.BlkResetResetsEveryUnit : Prop :=
  ∀ s : State, ∃ t, exec .blkReset s = .next t ∧
    t.cl = (State.initial s.params).cl ∧ t.pm = (State.initial s.params).pm ∧
    t.ht = (State.initial s.params).ht ∧ t.err = (State.initial s.params).err ∧
    t = { s with cl := t.cl, pm := t.pm, ht := t.ht, err := t.err, resp := some {} } ∧
    ∀ x y z : Instr, [x, y, z].Perm [.clReset, .pmReset, .htReset] →
      ∃ a b c, exec x s = .next a ∧ exec y a = .next b ∧ exec z b = .next c ∧
        t = { c with err := { flag := false, cause := 0, cmd := 0 } }

/-- 60_exceptions.md R176: BLK.STAT. -/
def Obligations.BlkStatReadsTheErrorRecord : Prop :=
  ∀ s : State, exec .blkStat s =
    .next { s with resp := some { rflag := s.err.flag, rcause := s.err.cause, rcmd := s.err.cmd } }

/-- 30_encoding.md R63: dmr.payload: which decoder it uses, its combined validity, and that no register changes. -/
def Obligations.DmrPayloadDispatchesAfterValidity : Prop :=
  ∀ (s : State) (b : Burst), ∃ t u g pl v,
    exec .stDec { s with ports := { burst := b } } = .next u ∧ u.resp = some g ∧
    dmrPayload b s = .next (t, pl, v) ∧
    (g.rvalid = true → g.rdt = 8 →
      pl = .trellis (trellisResponse s.params b).rp144 ∧ v = (trellisResponse s.params b).rvalid) ∧
    (g.rvalid = true → g.rdt = 10 → pl = .raw (bptcExtract b) ∧ v = true) ∧
    (g.rvalid = true → g.rdt ≠ 8 → g.rdt ≠ 10 →
      pl = .bptc (bptcResponse s.params b).rp96 ∧ v = (bptcResponse s.params b).rvalid) ∧
    (g.rvalid = false → pl = .bptc (bptcResponse s.params b).rp96 ∧ v = false) ∧
    t = { s with ports := t.ports, resp := t.resp }
end

