-- ==== Sys2Proof/Laws/Bits.lean ====
section
/-!
SUPPORT. Bit vectors read by index (00_scope.md R11): two vectors are equal when all their elements are, and what each
operation of Machine/Bits.lean leaves at each index.
-/

namespace Sys2Proof.Machine

theorem bit_eq_getElem {n : Nat} (v : BitVec n) {i : Nat} (h : i < n) : bit v i = v[n - 1 - i] := by
  simp [bit, BitVec.getMsbD, h, BitVec.getLsbD, BitVec.getElem_eq_testBit_toNat]

theorem bit_of_le {n : Nat} (v : BitVec n) {i : Nat} (h : n ≤ i) : bit v i = false := by
  simp [bit, BitVec.getMsbD, Nat.not_lt.mpr h]

/-- Two vectors with the same elements are equal. -/
theorem eq_of_bit {n : Nat} {u v : BitVec n} (h : ∀ i < n, bit u i = bit v i) : u = v :=
  BitVec.eq_of_getMsbD_eq fun i hi => h i hi

@[simp] theorem bit_ofBits (n : Nat) (f : Nat → Bool) (i : Nat) : bit (ofBits n f) i = (decide (i < n) && f i) := by
  induction n with
  | zero => simp [bit, ofBits]
  | succ n ih =>
    simp only [bit, ofBits] at ih ⊢
    rw [BitVec.getMsbD_concat]
    rcases Nat.lt_trichotomy i n with h | h | h
    · simp [h, ih, Nat.lt_succ_of_lt h]
    · subst h; simp
    · have h1 : ¬ i < n := by omega
      have h2 : ¬ i < n + 1 := by omega
      have h3 : i ≠ n := by omega
      simp [h1, h2, h3]

theorem bit_ofBits_of_lt {n : Nat} {f : Nat → Bool} {i : Nat} (h : i < n) : bit (ofBits n f) i = f i := by simp [h]

theorem ofBits_bit {n : Nat} (v : BitVec n) : ofBits n (bit v) = v :=
  eq_of_bit fun _ h => bit_ofBits_of_lt h

@[simp] theorem bit_xor {n : Nat} (u v : BitVec n) (i : Nat) : bit (u ^^^ v) i = (bit u i ^^ bit v i) := by
  simp [bit]

@[simp] theorem bit_zero (n i : Nat) : bit (0#n) i = false := by simp [bit]

@[simp] theorem bit_slice {n : Nat} (v : BitVec n) (a len i : Nat) :
    bit (slice v a len) i = (decide (i < len) && bit v (a + i)) := by simp [slice]

@[simp] theorem bit_unitBit (n k i : Nat) : bit (unitBit n k) i = (decide (i < n) && (i == k)) := by simp [unitBit]

@[simp] theorem bit_onesAt (n : Nat) (is : List Nat) (i : Nat) :
    bit (onesAt n is) i = (decide (i < n) && is.contains i) := by simp [onesAt]

theorem bit_flipBit {n : Nat} (v : BitVec n) (k i : Nat) :
    bit (flipBit v k) i = (bit v i ^^ (decide (i < n) && (i == k))) := by simp [flipBit]

theorem flipBit_flipBit {n : Nat} (v : BitVec n) (k : Nat) : flipBit (flipBit v k) k = v := by
  simp [flipBit]

@[simp] theorem length_bitsOf {n : Nat} (v : BitVec n) : (bitsOf v).length = n := by simp [bitsOf]

theorem getElem_bitsOf {n : Nat} (v : BitVec n) (i : Nat) (h : i < (bitsOf v).length) : (bitsOf v)[i] = bit v i := by
  simp [bitsOf]

@[simp] theorem slice_xor {n : Nat} (u v : BitVec n) (a len : Nat) :
    slice (u ^^^ v) a len = slice u a len ^^^ slice v a len := by
  apply eq_of_bit; intro i hi; simp [hi]

@[simp] theorem slice_zero (n a len : Nat) : slice (0#n) a len = 0 := by
  apply eq_of_bit; intro i _; simp

theorem bitsOf_xor {n : Nat} (u v : BitVec n) :
    bitsOf (u ^^^ v) = List.zipWith (· ^^ ·) (bitsOf u) (bitsOf v) := by
  simp [bitsOf, List.zipWith_map]

/-- The weight as a number of indices. -/
theorem wt_eq_countP {n : Nat} (v : BitVec n) : wt v = (List.range n).countP (bit v) := by
  simp [wt, bitsOf, List.count, List.countP_map, Function.comp_def]

theorem wt_eq_card {n : Nat} (v : BitVec n) : wt v = ((Finset.range n).filter fun i => bit v i = true).card := by
  rw [wt_eq_countP]
  simp [Finset.card, Finset.filter, Finset.range, Multiset.range, List.countP_eq_length_filter]

theorem wt_le {n : Nat} (v : BitVec n) : wt v ≤ n := by
  rw [wt_eq_countP]; exact le_trans List.countP_le_length (by simp)

/-- Weight 0 is the zero vector. -/
theorem wt_eq_zero {n : Nat} {v : BitVec n} : wt v = 0 ↔ v = 0 := by
  rw [wt_eq_countP, List.countP_eq_zero]
  constructor
  · intro h
    exact eq_of_bit fun i hi => by simpa using h i (by simpa using hi)
  · rintro rfl i -; simp

@[simp] theorem wt_zero (n : Nat) : wt (0#n) = 0 := wt_eq_zero.2 rfl

/-- The weight of a sum is at most the sum of the weights. -/
theorem wt_xor_le {n : Nat} (u v : BitVec n) : wt (u ^^^ v) ≤ wt u + wt v := by
  rw [wt_eq_card, wt_eq_card, wt_eq_card]
  refine le_trans (Finset.card_le_card ?_) (Finset.card_union_le _ _)
  intro i hi
  simp only [Finset.mem_filter, Finset.mem_range, Finset.mem_union, bit_xor] at hi ⊢
  cases h1 : bit u i <;> cases h2 : bit v i <;> simp_all

/-- The elements of a concatenation. -/
theorem bit_append {n m : Nat} (u : BitVec n) (v : BitVec m) (i : Nat) :
    bit (u ++ v) i = if i < n then bit u i else bit v (i - n) := by
  simp only [bit, BitVec.getMsbD_append]
  split <;> split <;> first | rfl | omega

/-- The weight of a concatenation. -/
theorem wt_append {n m : Nat} (u : BitVec n) (v : BitVec m) : wt (u ++ v) = wt u + wt v := by
  simp only [wt_eq_countP, List.range_add, List.countP_append, List.countP_map]
  congr 1
  · exact List.countP_congr fun i hi => by rw [bit_append, if_pos (List.mem_range.mp hi)]
  · exact List.countP_congr fun i _ => by simp [bit_append]

/-- A row vector times a matrix is linear in the vector. -/
theorem gf2Mul_xor {m : Nat} (rows : List (BitVec m)) (bs cs : List Bool) (h : bs.length = cs.length) :
    gf2Mul rows (List.zipWith (· ^^ ·) bs cs) = gf2Mul rows bs ^^^ gf2Mul rows cs := by
  induction rows generalizing bs cs with
  | nil => simp [gf2Mul]
  | cons r rows ih =>
    cases bs with
    | nil => cases cs <;> simp_all [gf2Mul]
    | cons b bs =>
      cases cs with
      | nil => simp at h
      | cons c cs =>
        simp only [List.zipWith_cons_cons, gf2Mul]
        rw [ih bs cs (by simpa using h)]
        apply eq_of_bit
        intro i hi
        cases b <;> cases c <;> simp <;> cases bit r i <;> cases bit (gf2Mul rows bs) i <;>
          cases bit (gf2Mul rows cs) i <;> rfl

theorem gf2Mul_false {m : Nat} (rows : List (BitVec m)) (n : Nat) : gf2Mul rows (List.replicate n false) = 0 := by
  induction rows generalizing n with
  | nil => cases n <;> simp [gf2Mul]
  | cons r rows ih => cases n <;> simp [gf2Mul, List.replicate_succ, ih]

/-- A vector with one 1 at `i` times a matrix is row `i`. -/
theorem gf2Mul_single {m : Nat} (rows : List (BitVec m)) (i k : Nat) (h : i < rows.length) :
    gf2Mul rows (List.replicate i false ++ true :: List.replicate k false) = rows[i] := by
  induction rows generalizing i with
  | nil => simp at h
  | cons r rows ih =>
    cases i with
    | zero => simp [gf2Mul, gf2Mul_false]
    | succ i => simpa [gf2Mul, List.replicate_succ] using ih i (by simpa using h)

theorem bitsOf_zero (n : Nat) : bitsOf (0 : BitVec n) = List.replicate n false :=
  List.ext_getElem (by simp) fun i h1 h2 => by simp [getElem_bitsOf]

theorem bitsOf_unitBit {n i : Nat} (hi : i < n) :
    bitsOf (unitBit n i) = List.replicate i false ++ true :: List.replicate (n - 1 - i) false := by
  refine List.ext_getElem (by simp; omega) fun j h1 h2 => ?_
  have hj : j < n := by simpa using h1
  rw [getElem_bitsOf, bit_unitBit, List.getElem_append]
  rcases Nat.lt_trichotomy j i with h | h | h
  · simp [h, hj, Nat.ne_of_lt h]
  · subst h; simp [hj]
  · simp [hj, Nat.ne_of_gt h, Nat.not_lt.mpr (Nat.le_of_lt h), List.getElem_cons, Nat.sub_ne_zero_of_lt h]

/-- In a list without repeats an element is found at its own place: a permutation table read backwards. -/
theorem findIdx_val {n : Nat} {l : List (Fin n)} (hn : l.Nodup) {i : Nat} (hi : i < l.length) :
    l.findIdx (fun j => j.val == l[i].val) = i := by
  rw [List.findIdx_eq hi]
  refine ⟨by simp, fun j hj => beq_eq_false_iff_ne.mpr fun he => ?_⟩
  have := (List.Nodup.getElem_inj_iff hn).mp (Fin.ext he)
  omega

end Sys2Proof.Machine
end

