-- ==== Sys2Proof/Laws/Bptc.lean ====
section
/-!
SUPPORT. BPTC(196,96) (45_bptc_196_96.md): a block is its bit 0 and its lines, a line repair changes its own line only,
and the encoder's block has every syndrome 0.
-/

namespace Sys2Proof.Machine

/-! ### Lines of a block -/

theorem bit_rowOf (d : Block196) {r c : Nat} (hc : c < 15) : bit (rowOf d r) c = bit d (cell r c) := by
  simp [rowOf, hc]

theorem bit_colOf (d : Block196) {r c : Nat} (hr : r < 13) : bit (colOf d c) r = bit d (cell r c) := by
  simp [colOf, hr]

/-- Every place of a block but 0 is one cell of the matrix (R147). -/
theorem exists_cell {i : Nat} (h1 : 1 ≤ i) (h2 : i < 196) : ∃ r < 13, ∃ c < 15, i = cell r c :=
  ⟨(i - 1) / 15, by omega, (i - 1) % 15, by omega, by unfold cell; omega⟩

theorem cell_inj {r r' c c' : Nat} (hc : c < 15) (hc' : c' < 15) (h : cell r c = cell r' c') : r = r' ∧ c = c' := by
  unfold cell at h; omega

theorem cell_lt {r c : Nat} (hr : r < 13) (hc : c < 15) : cell r c < 196 := by unfold cell; omega

/-- Two blocks with the same bit 0 and the same rows are equal. -/
theorem eq_of_rows {d e : Block196} (h0 : bit d 0 = bit e 0) (h : ∀ r < 13, rowOf d r = rowOf e r) : d = e := by
  refine eq_of_bit fun i hi => ?_
  by_cases h1 : i = 0
  · rw [h1, h0]
  · obtain ⟨r, hr, c, hc, rfl⟩ := exists_cell (by omega) hi
    rw [← bit_rowOf d hc, ← bit_rowOf e hc, h r hr]

/-- Two blocks with the same bit 0 and the same columns are equal. -/
theorem eq_of_cols {d e : Block196} (h0 : bit d 0 = bit e 0) (h : ∀ c < 15, colOf d c = colOf e c) : d = e := by
  refine eq_of_bit fun i hi => ?_
  by_cases h1 : i = 0
  · rw [h1, h0]
  · obtain ⟨r, hr, c, hc, rfl⟩ := exists_cell (by omega) hi
    rw [← bit_colOf d hr, ← bit_colOf e hr, h c hc]

theorem bit_flip_cell_zero (d : Block196) (r c : Nat) : bit (flipBit d (cell r c)) 0 = bit d 0 := by
  rw [bit_flipBit, beq_eq_false_iff_ne.mpr (by unfold cell; omega)]
  simp

/-- Inverting a cell inverts its row at its column, and leaves the other rows. -/
theorem rowOf_flip (d : Block196) {r c : Nat} (hr : r < 13) (hc : c < 15) (r' : Nat) :
    rowOf (flipBit d (cell r c)) r' = if r' = r then flipBit (rowOf d r) c else rowOf d r' := by
  refine eq_of_bit fun k hk => ?_
  have hl := cell_lt hr hc
  rw [bit_rowOf _ hk, bit_flipBit]
  split
  · next h =>
    subst h
    rw [bit_flipBit, bit_rowOf _ hk]
    by_cases hkc : k = c
    · subst hkc; simp [hk, hl]
    · rw [beq_eq_false_iff_ne.mpr hkc, beq_eq_false_iff_ne.mpr fun e => hkc (cell_inj hk hc e).2]
      simp
  · next h =>
    rw [bit_rowOf _ hk, beq_eq_false_iff_ne.mpr fun e => h (cell_inj hk hc e).1]
    simp

/-- Inverting a cell inverts its column at its row, and leaves the other columns. -/
theorem colOf_flip (d : Block196) {r c : Nat} (hr : r < 13) (hc : c < 15) {c' : Nat} (hc' : c' < 15) :
    colOf (flipBit d (cell r c)) c' = if c' = c then flipBit (colOf d c) r else colOf d c' := by
  refine eq_of_bit fun k hk => ?_
  have hl := cell_lt hr hc
  rw [bit_colOf _ hk, bit_flipBit]
  split
  · next h =>
    subst h
    rw [bit_flipBit, bit_colOf _ hk]
    by_cases hkr : k = r
    · subst hkr; simp [hk, hl]
    · rw [beq_eq_false_iff_ne.mpr hkr, beq_eq_false_iff_ne.mpr fun e => hkr (cell_inj hc' hc e).1]
      simp
  · next h =>
    rw [bit_colOf _ hk, beq_eq_false_iff_ne.mpr fun e => h (cell_inj hc' hc e).2]
    simp

/-! ### The syndromes are linear -/

theorem syndrome15_xor (p : Params) (a b : BitVec 15) :
    syndrome15 p (a ^^^ b) = syndrome15 p a ^^^ syndrome15 p b := by
  unfold syndrome15
  rw [slice_xor, slice_xor, bitsOf_xor, gf2Mul_xor _ _ _ (by simp)]
  ac_rfl

theorem syndrome13_xor (p : Params) (a b : BitVec 13) :
    syndrome13 p (a ^^^ b) = syndrome13 p a ^^^ syndrome13 p b := by
  unfold syndrome13
  rw [slice_xor, slice_xor, bitsOf_xor, gf2Mul_xor _ _ _ (by simp)]
  ac_rfl

@[simp] theorem syndrome15_zero (p : Params) : syndrome15 p 0#15 = 0#4 := by simpa using syndrome15_xor p 0#15 0#15

@[simp] theorem syndrome13_zero (p : Params) : syndrome13 p 0#13 = 0#4 := by simpa using syndrome13_xor p 0#13 0#13

/-! ### The columns of the parity-check matrices -/

/-- Column `i` of the parity-check matrix `[P^T | I4]` of a code of 4-bit parity rows (R148, R149). -/
def checkColumn (rows : List (BitVec 4)) (i : Nat) : BitVec 4 :=
  if h : i < rows.length then rows[i] else unitBit 4 (i - rows.length)

/-- The first `k` elements of a unit vector, times a matrix of `k` rows, and the four elements after them: the column
of the parity-check matrix. -/
theorem checkColumn_eq (rows : List (BitVec 4)) {n k i : Nat} (hk : rows.length = k) (hn : n = k + 4) (hi : i < n) :
    gf2Mul rows (bitsOf (slice (unitBit n i) 0 k)) ^^^ slice (unitBit n i) k 4 = checkColumn rows i := by
  subst hk hn
  by_cases h : i < rows.length
  · have h1 : slice (unitBit (rows.length + 4) i) 0 rows.length = unitBit rows.length i :=
      eq_of_bit fun j hj => by simp [hj, Nat.lt_add_right 4 hj]
    have h2 : slice (unitBit (rows.length + 4) i) rows.length 4 = 0 :=
      eq_of_bit fun j hj => by simp [hj, show rows.length + j ≠ i by omega]
    rw [h1, h2, bitsOf_unitBit h, gf2Mul_single rows i _ h, checkColumn, dif_pos h]
    exact BitVec.xor_zero
  · have h1 : slice (unitBit (rows.length + 4) i) 0 rows.length = 0 :=
      eq_of_bit fun j hj => by simp [hj, show j ≠ i by omega]
    have h2 : slice (unitBit (rows.length + 4) i) rows.length 4 = unitBit 4 (i - rows.length) :=
      eq_of_bit fun j hj => by
        simp only [bit_slice, bit_unitBit, hj, decide_true, Bool.true_and, Nat.add_lt_add_iff_left]
        rw [Bool.eq_iff_iff, beq_iff_eq, beq_iff_eq]
        omega
    rw [h1, h2, checkColumn, dif_neg h]
    rw [bitsOf_zero, gf2Mul_false]
    exact BitVec.zero_xor

theorem syndrome15_unit (p : Params) {i : Nat} (hi : i < 15) :
    syndrome15 p (unitBit 15 i) = checkColumn p.hamming15P.toList i :=
  checkColumn_eq p.hamming15P.toList (by simp) rfl hi

theorem syndrome13_unit (p : Params) {i : Nat} (hi : i < 13) :
    syndrome13 p (unitBit 13 i) = checkColumn p.hamming13P.toList i :=
  checkColumn_eq p.hamming13P.toList (by simp) rfl hi

/-- What R148 and R149 ask of the rows: different, not 0, and no unit vector. -/
structure HammingRows (rows : List (BitVec 4)) : Prop where
  nodup : rows.Nodup
  ne_zero : 0 ∉ rows
  ne_unit : ∀ k < 4, unitBit 4 k ∉ rows

theorem checkColumn_ne_zero {rows : List (BitVec 4)} (h : HammingRows rows) {i : Nat} (hi : i < rows.length + 4) :
    checkColumn rows i ≠ 0 := by
  rw [checkColumn]
  split
  · next hr => exact fun he => h.ne_zero (he ▸ List.getElem_mem hr)
  · exact (by decide : ∀ k < 4, unitBit 4 k ≠ 0) _ (by omega)

theorem checkColumn_inj {rows : List (BitVec 4)} (h : HammingRows rows) {i j : Nat} (hi : i < rows.length + 4)
    (hj : j < rows.length + 4) (he : checkColumn rows i = checkColumn rows j) : i = j := by
  by_cases h1 : i < rows.length <;> by_cases h2 : j < rows.length <;>
    simp only [checkColumn, h1, h2, dite_true, dite_false] at he
  · exact (List.Nodup.getElem_inj_iff h.nodup).mp he
  · exact absurd (he ▸ List.getElem_mem h1) (h.ne_unit _ (by omega))
  · exact absurd (he ▸ List.getElem_mem h2) (h.ne_unit _ (by omega))
  · have := (by decide : ∀ a < 4, ∀ b < 4, unitBit 4 a = unitBit 4 b → a = b) _ (by omega) _ (by omega) he
    omega

theorem rowCodeValid_of_rows {p : Params} (h : HammingRows p.hamming15P.toList) : p.RowCodeValid := by
  have hl : p.hamming15P.toList.length = 11 := by simp
  refine ⟨fun i hi => ?_, fun i hi j hj he => ?_⟩
  · rw [syndrome15_unit p hi]
    exact checkColumn_ne_zero h (by omega)
  · rw [syndrome15_unit p hi, syndrome15_unit p hj] at he
    exact checkColumn_inj h (by omega) (by omega) he

theorem colCodeValid_of_rows {p : Params} (h : HammingRows p.hamming13P.toList) : p.ColCodeValid := by
  have hl : p.hamming13P.toList.length = 9 := by simp
  refine ⟨fun i hi => ?_, fun i hi j hj he => ?_⟩
  · rw [syndrome13_unit p hi]
    exact checkColumn_ne_zero h (by omega)
  · rw [syndrome13_unit p hi, syndrome13_unit p hj] at he
    exact checkColumn_inj h (by omega) (by omega) he

/-! ### The repair of one line, on the line itself -/

/-- A row after its repair (R150). -/
def fixRow (p : Params) (l : BitVec 15) : BitVec 15 :=
  if syndrome15 p l = 0 then l
  else match rowPosition p (syndrome15 p l) with
    | some j => flipBit l j
    | none => l

/-- A column after its repair (R150). -/
def fixCol (p : Params) (l : BitVec 13) : BitVec 13 :=
  if syndrome13 p l = 0 then l
  else match colPosition p (syndrome13 p l) with
    | some i => flipBit l i
    | none => l

theorem rowPosition_lt {p : Params} {s : BitVec 4} {j : Nat} (h : rowPosition p s = some j) :
    j < 15 ∧ syndrome15 p (unitBit 15 j) = s :=
  ⟨List.mem_range.mp (List.mem_of_find?_eq_some h), by simpa using List.find?_some h⟩

theorem colPosition_lt {p : Params} {s : BitVec 4} {i : Nat} (h : colPosition p s = some i) :
    i < 13 ∧ syndrome13 p (unitBit 13 i) = s :=
  ⟨List.mem_range.mp (List.mem_of_find?_eq_some h), by simpa using List.find?_some h⟩

/-- In a valid row code the syndrome of one bit names that bit (R148). -/
theorem rowPosition_unit {p : Params} (hv : p.RowCodeValid) {j : Nat} (hj : j < 15) :
    rowPosition p (syndrome15 p (unitBit 15 j)) = some j := by
  cases h : rowPosition p (syndrome15 p (unitBit 15 j)) with
  | none => exact absurd (List.find?_eq_none.mp h j (List.mem_range.mpr hj)) (by simp)
  | some k => rw [hv.2 k (rowPosition_lt h).1 j hj (rowPosition_lt h).2]

/-- In a valid column code the syndrome of one bit names that bit (R149). -/
theorem colPosition_unit {p : Params} (hv : p.ColCodeValid) {i : Nat} (hi : i < 13) :
    colPosition p (syndrome13 p (unitBit 13 i)) = some i := by
  cases h : colPosition p (syndrome13 p (unitBit 13 i)) with
  | none => exact absurd (List.find?_eq_none.mp h i (List.mem_range.mpr hi)) (by simp)
  | some k => rw [hv.2 k (colPosition_lt h).1 i hi (colPosition_lt h).2]

theorem fixRow_clean {p : Params} {l : BitVec 15} (h : syndrome15 p l = 0) : fixRow p l = l := by
  rw [fixRow, if_pos h]

theorem fixCol_clean {p : Params} {l : BitVec 13} (h : syndrome13 p l = 0) : fixCol p l = l := by
  rw [fixCol, if_pos h]

/-- A row one error from a codeword is repaired to it. -/
theorem fixRow_unit {p : Params} (hv : p.RowCodeValid) {l : BitVec 15} (h : syndrome15 p l = 0) {j : Nat} (hj : j < 15) :
    fixRow p (flipBit l j) = l := by
  have hs : syndrome15 p (flipBit l j) = syndrome15 p (unitBit 15 j) := by
    rw [flipBit, syndrome15_xor, h]; simp
  rw [fixRow, hs, if_neg (hv.1 j hj), rowPosition_unit hv hj]
  exact flipBit_flipBit l j

/-- A column one error from a codeword is repaired to it. -/
theorem fixCol_unit {p : Params} (hv : p.ColCodeValid) {l : BitVec 13} (h : syndrome13 p l = 0) {i : Nat} (hi : i < 13) :
    fixCol p (flipBit l i) = l := by
  have hs : syndrome13 p (flipBit l i) = syndrome13 p (unitBit 13 i) := by
    rw [flipBit, syndrome13_xor, h]; simp
  rw [fixCol, hs, if_neg (hv.1 i hi), colPosition_unit hv hi]
  exact flipBit_flipBit l i

/-! ### The repair of one line of a block, and of all its lines -/

/-- What the repair of a row can do (R150): nothing, or the inversion of one of its cells, to the row as to the block. -/
theorem rowFix_cases (p : Params) (d : Block196) (r : Nat) :
    (rowFix p d r = d ∧ fixRow p (rowOf d r) = rowOf d r) ∨
      ∃ j < 15, rowFix p d r = flipBit d (cell r j) ∧ fixRow p (rowOf d r) = flipBit (rowOf d r) j := by
  by_cases hs : syndrome15 p (rowOf d r) = 0
  · exact .inl ⟨by simp only [rowFix, if_pos hs], by simp only [fixRow, if_pos hs]⟩
  · cases hp : rowPosition p (syndrome15 p (rowOf d r)) with
    | none => exact .inl ⟨by simp only [rowFix, if_neg hs, hp], by simp only [fixRow, if_neg hs, hp]⟩
    | some j =>
      exact .inr ⟨j, (rowPosition_lt hp).1, by simp only [rowFix, if_neg hs, hp], by simp only [fixRow, if_neg hs, hp]⟩

/-- What the repair of a column can do (R150): nothing, or the inversion of one of its cells. -/
theorem colFix_cases (p : Params) (d : Block196) (c : Nat) :
    (colFix p d c = d ∧ fixCol p (colOf d c) = colOf d c) ∨
      ∃ i < 13, colFix p d c = flipBit d (cell i c) ∧ fixCol p (colOf d c) = flipBit (colOf d c) i := by
  by_cases hs : syndrome13 p (colOf d c) = 0
  · exact .inl ⟨by simp only [colFix, if_pos hs], by simp only [fixCol, if_pos hs]⟩
  · cases hp : colPosition p (syndrome13 p (colOf d c)) with
    | none => exact .inl ⟨by simp only [colFix, if_neg hs, hp], by simp only [fixCol, if_neg hs, hp]⟩
    | some i =>
      exact .inr ⟨i, (colPosition_lt hp).1, by simp only [colFix, if_neg hs, hp], by simp only [fixCol, if_neg hs, hp]⟩

theorem rowFix_bit_zero (p : Params) (d : Block196) (r : Nat) : bit (rowFix p d r) 0 = bit d 0 := by
  rcases rowFix_cases p d r with ⟨h, -⟩ | ⟨j, -, h, -⟩ <;> rw [h]
  exact bit_flip_cell_zero d r j

theorem colFix_bit_zero (p : Params) (d : Block196) (c : Nat) : bit (colFix p d c) 0 = bit d 0 := by
  rcases colFix_cases p d c with ⟨h, -⟩ | ⟨i, -, h, -⟩ <;> rw [h]
  exact bit_flip_cell_zero d i c

/-- Repairing row `r` repairs that row and leaves the others. -/
theorem rowOf_rowFix (p : Params) (d : Block196) {r : Nat} (hr : r < 13) (r' : Nat) :
    rowOf (rowFix p d r) r' = if r' = r then fixRow p (rowOf d r) else rowOf d r' := by
  rcases rowFix_cases p d r with ⟨h1, h2⟩ | ⟨j, hj, h1, h2⟩ <;> rw [h1, h2]
  · by_cases h : r' = r
    · rw [if_pos h, h]
    · rw [if_neg h]
  · exact rowOf_flip d hr hj r'

/-- Repairing column `c` repairs that column and leaves the others. -/
theorem colOf_colFix (p : Params) (d : Block196) {c : Nat} (hc : c < 15) {c' : Nat} (hc' : c' < 15) :
    colOf (colFix p d c) c' = if c' = c then fixCol p (colOf d c) else colOf d c' := by
  rcases colFix_cases p d c with ⟨h1, h2⟩ | ⟨i, hi, h1, h2⟩ <;> rw [h1, h2]
  · by_cases h : c' = c
    · rw [if_pos h, h]
    · rw [if_neg h]
  · exact colOf_flip d hi hc hc'

/-- Repairing some rows, each once. -/
theorem rowOf_foldl_rowFix (p : Params) (rs : List Nat) (hn : rs.Nodup) (hl : ∀ r ∈ rs, r < 13) (d : Block196) (r : Nat) :
    rowOf (rs.foldl (rowFix p) d) r = if r ∈ rs then fixRow p (rowOf d r) else rowOf d r := by
  induction rs generalizing d with
  | nil => simp
  | cons q qs ih =>
    have hq := List.nodup_cons.mp hn
    rw [List.foldl_cons, ih hq.2 (fun x hx => hl x (List.mem_cons_of_mem _ hx)),
      rowOf_rowFix p d (hl q List.mem_cons_self)]
    by_cases h : r = q
    · subst h; simp [hq.1]
    · simp [h]

/-- Repairing some columns, each once. -/
theorem colOf_foldl_colFix (p : Params) (cs : List Nat) (hn : cs.Nodup) (hl : ∀ c ∈ cs, c < 15) (d : Block196) {c : Nat}
    (hc : c < 15) : colOf (cs.foldl (colFix p) d) c = if c ∈ cs then fixCol p (colOf d c) else colOf d c := by
  induction cs generalizing d with
  | nil => simp
  | cons q qs ih =>
    have hq := List.nodup_cons.mp hn
    rw [List.foldl_cons, ih hq.2 (fun x hx => hl x (List.mem_cons_of_mem _ hx)),
      colOf_colFix p d (hl q List.mem_cons_self) hc]
    by_cases h : c = q
    · subst h; simp [hq.1]
    · simp [h]

theorem foldl_bit_zero {f : Block196 → Nat → Block196} (hf : ∀ d i, bit (f d i) 0 = bit d 0) (is : List Nat)
    (d : Block196) : bit (is.foldl f d) 0 = bit d 0 := by
  induction is generalizing d with
  | nil => rfl
  | cons i is ih => rw [List.foldl_cons, ih, hf]

/-- The rows after the row half of a pass (R151). -/
theorem rowOf_rows (p : Params) (d : Block196) {r : Nat} (hr : r < 13) :
    rowOf ((List.range 13).foldl (rowFix p) d) r = fixRow p (rowOf d r) := by
  rw [rowOf_foldl_rowFix p _ List.nodup_range (by simp), if_pos (List.mem_range.mpr hr)]

/-- The columns after the column half of a pass (R151). -/
theorem colOf_cols (p : Params) (d : Block196) {c : Nat} (hc : c < 15) :
    colOf ((List.range 15).foldl (colFix p) d) c = fixCol p (colOf d c) := by
  rw [colOf_foldl_colFix p _ List.nodup_range (by simp) d hc, if_pos (List.mem_range.mpr hc)]

theorem bptcPass_bit_zero (p : Params) (d : Block196) : bit (bptcPass p d) 0 = bit d 0 := by
  rw [bptcPass, foldl_bit_zero (colFix_bit_zero p), foldl_bit_zero (rowFix_bit_zero p)]

/-- The repair never changes bit 0 (R151). -/
theorem bptcPasses_bit_zero (p : Params) (n : Nat) (d : Block196) : bit (bptcPasses p n d) 0 = bit d 0 := by
  induction n generalizing d with
  | zero => rfl
  | succ n ih =>
    rw [bptcPasses]
    split
    · rfl
    · rw [ih, bptcPass_bit_zero]

theorem bptcClean_iff (p : Params) (d : Block196) :
    bptcClean p d = true ↔ (∀ r < 13, syndrome15 p (rowOf d r) = 0) ∧ ∀ c < 15, syndrome13 p (colOf d c) = 0 := by
  simp [bptcClean]

/-- A block whose every syndrome is 0 is left as it is (R156 (d)). -/
theorem bptcPasses_clean {p : Params} {d : Block196} (h : bptcClean p d = true) (n : Nat) : bptcPasses p n d = d := by
  cases n with
  | zero => rfl
  | succ n => rw [bptcPasses, if_pos h]

/-! ### The encoder's block (R155) -/

/-- A linear map of a sum of rows is the sum of the maps. -/
theorem map_gf2Mul {m n : Nat} (f : BitVec m → BitVec n) (h0 : f 0 = 0) (hx : ∀ a b, f (a ^^^ b) = f a ^^^ f b)
    (rows : List (BitVec m)) (bs : List Bool) : f (gf2Mul rows bs) = gf2Mul (rows.map f) bs := by
  induction rows generalizing bs with
  | nil => simpa [gf2Mul] using h0
  | cons r rows ih =>
    cases bs with
    | nil => simpa [gf2Mul] using h0
    | cons b bs => cases b <;> simp [gf2Mul, hx, ih]

theorem gf2Mul_zero_rows {m : Nat} (rows : List (BitVec m)) (bs : List Bool) (h : ∀ r ∈ rows, r = 0) :
    gf2Mul rows bs = 0 := by
  induction rows generalizing bs with
  | nil => simp [gf2Mul]
  | cons r rows ih =>
    cases bs with
    | nil => simp [gf2Mul]
    | cons b bs =>
      rw [gf2Mul, ih bs fun x hx => h x (List.mem_cons_of_mem _ hx), h r List.mem_cons_self]
      cases b <;> simp

/-- One bit of a sum of rows. -/
theorem bit_gf2Mul {m : Nat} (rows : List (BitVec m)) (bs : List Bool) (i : Nat) :
    bit (gf2Mul rows bs) i = (List.zipWith (fun r b => b && bit r i) rows bs).foldr (· ^^ ·) false := by
  induction rows generalizing bs with
  | nil => simp [gf2Mul]
  | cons r rows ih =>
    cases bs with
    | nil => simp [gf2Mul]
    | cons b bs => cases b <;> simp [gf2Mul, ih]

/-- One cell of the encoder's block. -/
theorem bit_encoded (p : Params) (m : BitVec 96) {r c : Nat} (hr : r < 13) (hc : c < 15) :
    bit (bptcEncodedMatrix p m) (cell r c) = encodedCell p m r c := by
  rw [bptcEncodedMatrix, bit_ofBits_of_lt (cell_lt hr hc), if_neg (by unfold cell; omega)]
  congr 1 <;> (unfold cell; omega)

/-- The rows of data have row syndrome 0 (R148). -/
theorem syndrome15_data_row (p : Params) (m : BitVec 96) {r : Nat} (hr : r < 9) :
    syndrome15 p (rowOf (bptcEncodedMatrix p m) r) = 0 := by
  have hcell : ∀ c < 15, bit (rowOf (bptcEncodedMatrix p m) r) c = encodedRow p m r c := fun c hc => by
    rw [bit_rowOf _ hc, bit_encoded p m (by omega) hc, encodedCell, if_pos hr]
  have h1 : bitsOf (slice (rowOf (bptcEncodedMatrix p m) r) 0 11) = (List.range 11).map (payloadAt m r) := by
    refine List.map_congr_left fun c hc => ?_
    have hc := List.mem_range.mp hc
    rw [bit_slice, Nat.zero_add, hcell c (by omega), encodedRow, if_pos hc]
    simp [hc]
  rw [syndrome15, h1]
  refine BitVec.xor_eq_zero_iff.mpr (eq_of_bit fun i hi => ?_)
  rw [bit_slice, hcell (11 + i) (by omega), encodedRow, if_neg (by omega)]
  simp [hi]

/-- Every column has column syndrome 0 (R149). -/
theorem syndrome13_encoded (p : Params) (m : BitVec 96) {c : Nat} (hc : c < 15) :
    syndrome13 p (colOf (bptcEncodedMatrix p m) c) = 0 := by
  have hcell : ∀ r < 13, bit (colOf (bptcEncodedMatrix p m) c) r = encodedCell p m r c := fun r hr => by
    rw [bit_colOf _ hr, bit_encoded p m hr hc]
  have h1 : bitsOf (slice (colOf (bptcEncodedMatrix p m) c) 0 9) = (List.range 9).map fun i => encodedRow p m i c := by
    refine List.map_congr_left fun r hr => ?_
    have hr := List.mem_range.mp hr
    rw [bit_slice, Nat.zero_add, hcell r (by omega), encodedCell, if_pos hr]
    simp [hr]
  rw [syndrome13, h1]
  refine BitVec.xor_eq_zero_iff.mpr (eq_of_bit fun i hi => ?_)
  rw [bit_slice, hcell (9 + i) (by omega), encodedCell, if_neg (by omega)]
  simp [hi]

/-- A row of column parity is a sum of rows of data. -/
theorem parity_row (p : Params) (m : BitVec 96) {i : Nat} (hi : i < 4) :
    rowOf (bptcEncodedMatrix p m) (9 + i) =
      gf2Mul ((List.range 9).map (rowOf (bptcEncodedMatrix p m))) (p.hamming13P.toList.map fun h => bit h i) := by
  refine eq_of_bit fun c hc => ?_
  rw [bit_rowOf _ hc, bit_encoded p m (by omega) hc, encodedCell, if_neg (by omega), Nat.add_sub_cancel_left, bit_gf2Mul,
    bit_gf2Mul, List.zipWith_map_left, List.zipWith_map_right, List.zipWith_map_right, List.zipWith_comm]
  congr 1
  refine List.ext_getElem (by simp) fun k h1 h2 => ?_
  have hk : k < 9 := by simp at h1; omega
  simp only [List.getElem_zipWith, List.getElem_range]
  rw [bit_rowOf _ hc, bit_encoded p m (by omega) hc, encodedCell, if_pos hk, Bool.and_comm]

/-- The encoder's block has every syndrome 0 (R149). -/
theorem encoded_clean (p : Params) (m : BitVec 96) : bptcClean p (bptcEncodedMatrix p m) = true := by
  refine (bptcClean_iff p _).mpr ⟨fun r hr => ?_, fun c hc => syndrome13_encoded p m hc⟩
  by_cases h : r < 9
  · exact syndrome15_data_row p m h
  · obtain ⟨i, rfl⟩ : ∃ i, r = 9 + i := ⟨r - 9, by omega⟩
    rw [parity_row p m (by omega), map_gf2Mul (syndrome15 p) (syndrome15_zero p) (syndrome15_xor p)]
    refine gf2Mul_zero_rows _ _ fun x hx => ?_
    simp only [List.mem_map, List.mem_range] at hx
    obtain ⟨_, ⟨r, hr, rfl⟩, rfl⟩ := hx
    exact syndrome15_data_row p m hr

/-! ### Transport -/

/-- Extraction gives back the block a burst carries (R143). -/
theorem bptcExtract_burstOf (v : Block196) (other : Burst) : bptcExtract (burstOf v other) = v := by
  refine eq_of_bit fun i hi => ?_
  rw [bptcExtract, bit_ofBits_of_lt hi, burstOf, bit_ofBits, bit_ofBits]
  by_cases h : i < 98
  · have h1 : 24 + i < 288 := by omega
    have h2 : 24 ≤ 24 + i ∧ 24 + i < 122 := by omega
    rw [if_pos h, if_pos h2, decide_eq_true h1, Bool.true_and, Nat.add_sub_cancel_left]
  · have h1 : 190 + (i - 98) < 288 := by omega
    have h2 : ¬(24 ≤ 190 + (i - 98) ∧ 190 + (i - 98) < 122) := by omega
    have h3 : 190 ≤ 190 + (i - 98) := Nat.le_add_right _ _
    have h4 : 190 + (i - 98) - 92 = i := by omega
    rw [if_neg h, if_neg h2, if_pos h3, decide_eq_true h1, Bool.true_and, h4]

/-- De-interleaving undoes the encoder's interleaving (R145, R155). -/
theorem deinterleave_bptcEncode {p : Params} (hv : p.BptcInterleaveValid) (m : BitVec 96) :
    deinterleave p (bptcEncode p m) = bptcEncodedMatrix p m := by
  refine eq_of_bit fun i hi => ?_
  have hi' : i < p.bptcInterleave.toList.length := by simpa using hi
  rw [deinterleave, bit_ofBits_of_lt hi, bptcEncode, bit_ofBits_of_lt (Fin.isLt _), List.getD_eq_getElem _ _ hi',
    findIdx_val hv hi']

end Sys2Proof.Machine
end

