-- ==== Sys2Proof/Laws/RealNum.lean ====
section
/-!
SUPPORT. The values of REAL terms: the folded operations stand for the exact operations, and the constants of
Machine/RealNum.lean for the formulas of the spec.
-/

namespace Sys2Proof.Machine

variable (ρ : Nat → ℝ)

@[simp] theorem val_rAdd (a b : RealTerm) : (rAdd a b).val ρ = a.val ρ + b.val ρ := by
  unfold rAdd; split <;> simp [RealTerm.val]

@[simp] theorem val_rSub (a b : RealTerm) : (rSub a b).val ρ = a.val ρ - b.val ρ := by
  unfold rSub; split <;> simp [RealTerm.val]

@[simp] theorem val_rMul (a b : RealTerm) : (rMul a b).val ρ = a.val ρ * b.val ρ := by
  unfold rMul; split <;> simp [RealTerm.val]

@[simp] theorem val_rDiv (a b : RealTerm) : (rDiv a b).val ρ = a.val ρ / b.val ρ := by
  unfold rDiv; split <;> simp [RealTerm.val]

@[simp] theorem val_rat (q : ℚ) : (RealTerm.rat q).val ρ = (q : ℝ) := rfl
@[simp] theorem val_atom (n : Nat) : (RealTerm.atom n).val ρ = ρ n := rfl
@[simp] theorem val_pi : RealTerm.pi.val ρ = Real.pi := rfl
@[simp] theorem val_cos (a : RealTerm) : (RealTerm.cos a).val ρ = Real.cos (a.val ρ) := rfl
@[simp] theorem val_sin (a : RealTerm) : (RealTerm.sin a).val ρ = Real.sin (a.val ρ) := rfl
@[simp] theorem val_normPhase (p : RealTerm) : (RealTerm.normPhase p).val ρ = normalizePhase (p.val ρ) := rfl
@[simp] theorem val_clampFreq (m f : RealTerm) :
    (RealTerm.clampFreq m f).val ρ = clampFreqReal (m.val ρ) (f.val ρ) := rfl
@[simp] theorem val_wrapFreq (m f : RealTerm) :
    (RealTerm.wrapFreq m f).val ρ = wrapFreqReal (m.val ρ) (f.val ρ) := rfl

theorem val_rSum (xs : List RealTerm) : (rSum xs).val ρ = (xs.map (·.val ρ)).sum := by
  induction xs with
  | nil => simp [rSum]
  | cons x xs ih => simp [rSum, ih]

@[simp] theorem val_damping : damping.val ρ = Real.sqrt 2 / 2 := by simp [damping, RealTerm.val]

@[simp] theorem val_maxFreq (p : Params) : (maxFreq p).val ρ = maxFreqReal ρ p := by
  simp [maxFreq, maxFreqReal]

@[simp] theorem val_alphaOf (b : RealTerm) : (alphaOf b).val ρ = alphaReal (b.val ρ) := by
  simp [alphaOf, gainDen, alphaReal]

@[simp] theorem val_betaOf (b : RealTerm) : (betaOf b).val ρ = betaReal (b.val ρ) := by
  simp [betaOf, gainDen, betaReal]

@[simp] theorem val_quadCoeff (p : Params) (k : Nat) :
    (quadCoeff p k).val ρ = 2 * (halfband p (2 * k)).val ρ * (if 2 * k < 23 then -1 else 1) := by
  simp only [quadCoeff, val_rMul, val_rat]
  split <;> simp

end Sys2Proof.Machine
end

