-- ==== Sys2Proof/Laws/Defaults.lean ====
section
/-!
SUPPORT. The parameters of the boot instance meet what the spec asks of them, whatever the opaque constants are
(00_scope.md R8, 41_sync_monitor.md R92, 42_hilbert_fir.md R103, 45_bptc_196_96.md R148, R149).
-/

namespace Sys2Proof.Machine

/-! ### Positive reals and steps upward -/

theorem val_positiveTerm (ρ : Nat → ℝ) (x : RealTerm) :
    (positiveTerm x).val ρ = x.val ρ + Real.sqrt (x.val ρ * x.val ρ + 1) := by
  simp [positiveTerm, RealTerm.val]

theorem val_raisedTerm (ρ : Nat → ℝ) (low x : RealTerm) :
    (raisedTerm low x).val ρ = low.val ρ + |x.val ρ| := by
  simp [raisedTerm, RealTerm.val, Real.sqrt_mul_self_eq_abs]

theorem positiveTerm_pos (ρ : Nat → ℝ) (x : RealTerm) : 0 < (positiveTerm x).val ρ := by
  rw [val_positiveTerm]
  have h : |x.val ρ| < Real.sqrt (x.val ρ * x.val ρ + 1) := by
    rw [← Real.sqrt_mul_self_eq_abs]
    exact Real.sqrt_lt_sqrt (mul_self_nonneg _) (lt_add_one _)
  linarith [neg_abs_le (x.val ρ)]

theorem le_raisedTerm (ρ : Nat → ℝ) (low x : RealTerm) : low.val ρ ≤ (raisedTerm low x).val ρ := by
  rw [val_raisedTerm]
  linarith [abs_nonneg (x.val ρ)]

/-- Nothing R8 allows is left out: each positive real is a value of `positiveTerm`. -/
theorem positiveTerm_reaches {y : ℝ} (hy : 0 < y) :
    (positiveTerm (.atom 0)).val (fun _ => (y - y⁻¹) / 2) = y := by
  have h : (y - y⁻¹) / 2 * ((y - y⁻¹) / 2) + 1 = (y + y⁻¹) / 2 * ((y + y⁻¹) / 2) := by field_simp; ring
  rw [val_positiveTerm, val_atom, h, Real.sqrt_mul_self (by positivity)]
  ring

/-- Nothing R8 allows is left out: each real not below `low` is a value of `raisedTerm`. -/
theorem raisedTerm_reaches (ρ : Nat → ℝ) (low x : RealTerm) {y : ℝ} (hy : low.val ρ ≤ y)
    (hx : x.val ρ = y - low.val ρ) : (raisedTerm low x).val ρ = y := by
  rw [val_raisedTerm, hx, abs_of_nonneg (by linarith)]
  ring

theorem boot_ratesPositive (ρ : Nat → ℝ) : bootParams.RatesPositive ρ := ⟨positiveTerm_pos ρ _, positiveTerm_pos ρ _⟩

theorem boot_bandwidthsValid (ρ : Nat → ℝ) : bootParams.BandwidthsValid ρ :=
  ⟨positiveTerm_pos ρ _, le_raisedTerm ρ _ _, le_raisedTerm ρ _ _, le_raisedTerm ρ _ _⟩

/-! ### The level table and the prototype -/

theorem boot_syncTableValid : bootParams.SyncTableValid := by
  simp [Params.SyncTableValid, bootParams, syncTable]

theorem getElem_symmetricTaps (half : Vector RealTerm 24) {n : Nat} (hn : n < 47) :
    (symmetricTaps half)[n] = half[min n (46 - n)] := by
  simp [symmetricTaps]

theorem boot_halfbandSymmetric (ρ : Nat → ℝ) : bootParams.HalfbandSymmetric ρ := by
  have h : ∀ {n}, (hn : n < 47) → halfband bootParams n = Config.halfbandHalf[min n (46 - n)] := fun hn => by
    simp [halfband, bootParams, hn, getElem_symmetricTaps]
  intro n hn
  rw [h (by omega), h (by omega)]
  have hm : min (46 - n) (46 - (46 - n)) = min n (46 - n) := by omega
  simp only [hm]

/-! ### The Hamming matrices -/

theorem hammingValues_inj : ∀ a b : Fin 11, hammingValues[a] = hammingValues[b] → a = b := by decide

theorem hammingValues_heavy : ∀ a : Fin 11, hammingValues[a] ≠ 0 ∧ ∀ k < 4, hammingValues[a] ≠ unitBit 4 k := by decide

/-- In every order the values make a matrix that R148 or R149 allows. -/
theorem hammingRows_valid (order : Equiv.Perm (Fin 11)) (n : Nat) (h : n ≤ 11) :
    HammingRows (hammingRows order n h).toList := by
  have hr : (hammingRows order n h).toList = List.ofFn fun i : Fin n => hammingValues[order (i.castLE h)] := by
    simp [hammingRows, Vector.toList_ofFn]
  rw [hr]
  refine ⟨List.nodup_ofFn.mpr fun a b he => ?_, fun hm => ?_, fun k hk hm => ?_⟩
  · exact Fin.castLE_injective h (order.injective (hammingValues_inj _ _ he))
  · obtain ⟨a, ha⟩ := List.mem_ofFn.mp hm
    exact (hammingValues_heavy _).1 ha
  · obtain ⟨a, ha⟩ := List.mem_ofFn.mp hm
    exact (hammingValues_heavy _).2 k hk ha

theorem boot_rowCodeValid : bootParams.RowCodeValid := rowCodeValid_of_rows (hammingRows_valid _ 11 (by decide))

theorem boot_colCodeValid : bootParams.ColCodeValid := colCodeValid_of_rows (hammingRows_valid _ 9 (by decide))

/-! ### The default tables -/

theorem boot_radiusInRange : bootParams.RadiusInRange := ⟨by decide, by decide⟩

theorem boot_passesPositive : bootParams.PassesPositive := by unfold Params.PassesPositive; decide

theorem boot_slotIndexValid : bootParams.SlotIndexValid :=
  (by decide +kernel : defaultSlotTypeIndex.toList.Nodup)

theorem boot_bptcInterleaveValid : bootParams.BptcInterleaveValid :=
  (by decide +kernel : defaultBptcInterleave.toList.Nodup)

theorem boot_trellisTablesValid : bootParams.TrellisTablesValid :=
  (by decide +kernel : defaultTrellisInterleave.toList.Nodup ∧ defaultTrellisPT.toList.Nodup)

theorem boot_trellisStatesSeparate : bootParams.TrellisStatesSeparate :=
  (by decide +kernel : ∀ s : Fin 8, defaultTrellisEnc[s].toList.Nodup)

end Sys2Proof.Machine
end

