-- ==== Sys2Proof/Laws/State.lean ====
section
/-!
SUPPORT. What each update of the state leaves in each field: one lemma per field per update, so that no later proof
unfolds a record update.
-/

namespace Sys2Proof.Machine

section respond
variable (r : Response) (s : State)
@[simp] theorem respond_params : (s.respond r).params = s.params := rfl
@[simp] theorem respond_cl : (s.respond r).cl = s.cl := rfl
@[simp] theorem respond_pm : (s.respond r).pm = s.pm := rfl
@[simp] theorem respond_ht : (s.respond r).ht = s.ht := rfl
@[simp] theorem respond_err : (s.respond r).err = s.err := rfl
@[simp] theorem respond_ports : (s.respond r).ports = s.ports := rfl
@[simp] theorem respond_resp : (s.respond r).resp = some r := rfl
@[simp] theorem respond_pending : (s.respond r).pending = s.pending := rfl
@[simp] theorem respond_draws : (s.respond r).draws = s.draws := rfl
end respond

section present
variable (p : Ports) (rest : List HostInput) (s : State)
@[simp] theorem present_params : (s.present p rest).params = s.params := rfl
@[simp] theorem present_cl : (s.present p rest).cl = s.cl := rfl
@[simp] theorem present_pm : (s.present p rest).pm = s.pm := rfl
@[simp] theorem present_ht : (s.present p rest).ht = s.ht := rfl
@[simp] theorem present_err : (s.present p rest).err = s.err := rfl
@[simp] theorem present_ports : (s.present p rest).ports = p := rfl
@[simp] theorem present_resp : (s.present p rest).resp = s.resp := rfl
@[simp] theorem present_pending : (s.present p rest).pending = rest := rfl
@[simp] theorem present_draws : (s.present p rest).draws = s.draws := rfl
end present

section reject
variable (w : CmdWord) (s : State)
@[simp] theorem reject_params : (reject w s).params = s.params := rfl
@[simp] theorem reject_cl : (reject w s).cl = s.cl := rfl
@[simp] theorem reject_pm : (reject w s).pm = s.pm := rfl
@[simp] theorem reject_ht : (reject w s).ht = s.ht := rfl
@[simp] theorem reject_err : (reject w s).err = { flag := true, cause := 1, cmd := w } := rfl
@[simp] theorem reject_ports : (reject w s).ports = s.ports := rfl
@[simp] theorem reject_resp : (reject w s).resp = some { status := true } := rfl
@[simp] theorem reject_pending : (reject w s).pending = s.pending := rfl
@[simp] theorem reject_draws : (reject w s).draws = s.draws := rfl
end reject

section setTracking
variable (t : TrackingState) (s : State)
@[simp] theorem setTracking_params : (setTracking t s).params = s.params := rfl
@[simp] theorem setTracking_phase : (setTracking t s).cl.phase = s.cl.phase := rfl
@[simp] theorem setTracking_freq : (setTracking t s).cl.freq = s.cl.freq := rfl
@[simp] theorem setTracking_auto : (setTracking t s).cl.auto = s.cl.auto := rfl
@[simp] theorem setTracking_trk : (setTracking t s).cl.trk = t := rfl
@[simp] theorem setTracking_alpha : (setTracking t s).cl.alpha = alphaOf (loopBw s.params t) := rfl
@[simp] theorem setTracking_beta : (setTracking t s).cl.beta = betaOf (loopBw s.params t) := rfl
@[simp] theorem setTracking_pm : (setTracking t s).pm = s.pm := rfl
@[simp] theorem setTracking_ht : (setTracking t s).ht = s.ht := rfl
@[simp] theorem setTracking_err : (setTracking t s).err = s.err := rfl
@[simp] theorem setTracking_ports : (setTracking t s).ports = s.ports := rfl
@[simp] theorem setTracking_resp : (setTracking t s).resp = s.resp := rfl
@[simp] theorem setTracking_pending : (setTracking t s).pending = s.pending := rfl
@[simp] theorem setTracking_draws : (setTracking t s).draws = s.draws := rfl
end setTracking

section advancePhase
variable (s : State)
@[simp] theorem advancePhase_params : (advancePhase s).params = s.params := rfl
@[simp] theorem advancePhase_phase : (advancePhase s).cl.phase = .normPhase (rAdd s.cl.phase s.cl.freq) := rfl
@[simp] theorem advancePhase_freq : (advancePhase s).cl.freq = s.cl.freq := rfl
@[simp] theorem advancePhase_trk : (advancePhase s).cl.trk = s.cl.trk := rfl
@[simp] theorem advancePhase_alpha : (advancePhase s).cl.alpha = s.cl.alpha := rfl
@[simp] theorem advancePhase_beta : (advancePhase s).cl.beta = s.cl.beta := rfl
@[simp] theorem advancePhase_auto : (advancePhase s).cl.auto = s.cl.auto := rfl
@[simp] theorem advancePhase_pm : (advancePhase s).pm = s.pm := rfl
@[simp] theorem advancePhase_ht : (advancePhase s).ht = s.ht := rfl
@[simp] theorem advancePhase_err : (advancePhase s).err = s.err := rfl
@[simp] theorem advancePhase_ports : (advancePhase s).ports = s.ports := rfl
@[simp] theorem advancePhase_pending : (advancePhase s).pending = s.pending := rfl
@[simp] theorem advancePhase_draws : (advancePhase s).draws = s.draws := rfl
end advancePhase

section adjustLoop
variable (e : RealTerm) (s : State)
@[simp] theorem adjustLoop_params : (adjustLoop e s).params = s.params := rfl
@[simp] theorem adjustLoop_trk : (adjustLoop e s).cl.trk = s.cl.trk := rfl
@[simp] theorem adjustLoop_alpha : (adjustLoop e s).cl.alpha = s.cl.alpha := rfl
@[simp] theorem adjustLoop_beta : (adjustLoop e s).cl.beta = s.cl.beta := rfl
@[simp] theorem adjustLoop_auto : (adjustLoop e s).cl.auto = s.cl.auto := rfl
@[simp] theorem adjustLoop_pm : (adjustLoop e s).pm = s.pm := rfl
@[simp] theorem adjustLoop_ht : (adjustLoop e s).ht = s.ht := rfl
@[simp] theorem adjustLoop_err : (adjustLoop e s).err = s.err := rfl
@[simp] theorem adjustLoop_ports : (adjustLoop e s).ports = s.ports := rfl
@[simp] theorem adjustLoop_pending : (adjustLoop e s).pending = s.pending := rfl
@[simp] theorem adjustLoop_draws : (adjustLoop e s).draws = s.draws := rfl
end adjustLoop

/-- The delay line after a pair: the newest two samples, then the old line (42_hilbert_fir.md R106). -/
theorem pushLine_toList (a b : RealTerm) (x : Vector RealTerm 47) :
    (pushLine a b x).toList = b :: a :: x.toList.take 45 := by
  simp [pushLine, Vector.toList]

@[simp] theorem pushPair_tap_zero (a b : RealTerm) (h : Hilbert) : (pushPair a b h).tap 0 = b := by
  simp [Hilbert.tap, pushPair, pushLine_toList]

@[simp] theorem pushPair_tap_one (a b : RealTerm) (h : Hilbert) : (pushPair a b h).tap 1 = a := by
  simp [Hilbert.tap, pushPair, pushLine_toList]

/-- A sample that is still in the line stands two places later. -/
theorem pushPair_tap_add_two (a b : RealTerm) (h : Hilbert) {j : Nat} (hj : j + 2 ≤ 46) :
    (pushPair a b h).tap (j + 2) = h.tap j := by
  simp only [Hilbert.tap, pushPair, pushLine_toList, List.getD_eq_getElem?_getD, List.getElem?_cons_succ,
    List.getElem?_take]
  rw [if_pos (by omega)]

@[simp] theorem pushPair_sign (a b : RealTerm) (h : Hilbert) : (pushPair a b h).sign = !h.sign := rfl

/-- The cleared delay line reads 0 at every tap. -/
@[simp] theorem tap_cleared (sg : Bool) (j : Nat) :
    Hilbert.tap { x := Vector.replicate 47 (.rat 0), sign := sg } j = .rat 0 := by
  simp only [Hilbert.tap, Vector.toList_replicate, List.getD_eq_getElem?_getD, List.getElem?_replicate]
  split <;> rfl

end Sys2Proof.Machine
end

