-- ==== Sys2Proof/Laws/Exec.lean ====
section
/-!
SUPPORT. What each shared operation and each command can do, said once: later proofs cite these and do not unfold exec.
-/

namespace Sys2Proof.Machine

/-- A REAL port either carries a finite number and the command runs, or the command is refused. -/
theorem withReal_cases (port : RealPort) (k : RealTerm → Result) :
    (∃ x, port = .finite x ∧ withReal port k = k x) ∨
      (port.isFinite = false ∧ withReal port k = .refused .nonFiniteOperand) := by
  cases port <;> simp [withReal, RealPort.isFinite]

@[simp] theorem withReal_finite (x : RealTerm) (k : RealTerm → Result) : withReal (.finite x) k = k x := rfl

theorem withReal_next {port : RealPort} {k : RealTerm → Result} {t : State} (h : withReal port k = .next t) :
    ∃ x, port = .finite x ∧ k x = .next t := by
  cases port <;> simp_all [withReal]

/-- What the automatic path can do (40_costas_loop.md R83). -/
theorem autoTrack_cases (s : State) :
    (s.cl.auto = false ∧ autoTrack s = s) ∨
      (s.cl.auto = true ∧ autoTrack s = setTracking (Config.autoDraw s.draws) { s with draws := s.draws + 1 }) := by
  unfold autoTrack
  cases h : s.cl.auto <;> simp

/-- What apply_level can do (41_sync_monitor.md R96). -/
theorem applyLevel_cases (l : TrackingState) (s : State) :
    (l = s.pm.level ∧ applyLevel l s = s) ∨
      (l ≠ s.pm.level ∧ applyLevel l s = setTracking l { s with pm := { s.pm with level := l } }) := by
  unfold applyLevel
  by_cases h : l = s.pm.level <;> simp [h]

/-- After apply_level the monitor's level is the one applied. -/
@[simp] theorem applyLevel_level (l : TrackingState) (s : State) : (applyLevel l s).pm.level = l := by
  rcases applyLevel_cases l s with ⟨h, e⟩ | ⟨_, e⟩
  · rw [e, h]
  · rw [e]; rfl

@[simp] theorem applyLevel_count (l : TrackingState) (s : State) : (applyLevel l s).pm.count = s.pm.count := by
  rcases applyLevel_cases l s with ⟨_, e⟩ | ⟨_, e⟩ <;> (rw [e]; try rfl)

@[simp] theorem applyLevel_params (l : TrackingState) (s : State) : (applyLevel l s).params = s.params := by
  rcases applyLevel_cases l s with ⟨_, e⟩ | ⟨_, e⟩ <;> (rw [e]; try rfl)

/-- The updated count as a number, for a step up by one (41_sync_monitor.md R91, R98). -/
theorem countUpdate_up (p : Params) (c : BitVec 16) :
    (countUpdate p c 1).toNat = min (c.toNat + 1) p.maxSyncCount.toNat := by
  have h1 := p.maxSyncCount.isLt
  unfold countUpdate clampInt
  split
  · omega
  · split
    · simp only [BitVec.toNat_ofInt]; omega
    · simp only [BitVec.toNat_ofInt]; omega

/-- The updated count as a number, for a step down by two (41_sync_monitor.md R91, R99). -/
theorem countUpdate_down (p : Params) (c : BitVec 16) :
    (countUpdate p c (-2)).toNat = min (c.toNat - 2) p.maxSyncCount.toNat := by
  have h1 := p.maxSyncCount.isLt
  unfold countUpdate clampInt
  split
  · simp only [BitVec.toNat_ofInt]; omega
  · split
    · simp only [BitVec.toNat_ofInt]; omega
    · simp only [BitVec.toNat_ofInt]; omega

/-- The updated count stays within its bound (10_state.md R25). -/
theorem countUpdate_le (p : Params) (c : BitVec 16) (d : Int) :
    (countUpdate p c d).toNat ≤ p.maxSyncCount.toNat := by
  have h1 := p.maxSyncCount.isLt
  unfold countUpdate clampInt
  split
  · simp
  · split
    · simp only [BitVec.toNat_ofInt]; omega
    · simp only [BitVec.toNat_ofInt]; omega

/-- What a step can do: hold when idle, take the reset input, reject a word, or run a command. -/
theorem step_cases {s t : State} (h : step s = .next t) :
    (s.pending = [] ∧ t = s) ∨
    (∃ rest, s.pending = .resetInput :: rest ∧ t = takeResetInput rest s) ∨
    (∃ w ports rest, s.pending = .command w ports :: rest ∧ decode w = none ∧ t = reject w (s.present ports rest)) ∨
    (∃ w ports rest i, s.pending = .command w ports :: rest ∧ decode w = some i ∧
      exec i (s.present ports rest) = .next t) := by
  unfold step at h
  split at h
  · next hp => exact .inl ⟨hp, by simpa using h.symm⟩
  · next rest hp => exact .inr (.inl ⟨rest, hp, by simpa using h.symm⟩)
  · next w ports rest hp =>
    split at h
    · next i hd => exact .inr (.inr (.inr ⟨w, ports, rest, i, hp, hd, h⟩))
    · next hd => exact .inr (.inr (.inl ⟨w, ports, rest, hp, hd, by simpa using h.symm⟩))

end Sys2Proof.Machine
end

