-- ==== Sys2Proof/Laws/Fir.lean ====
section
/-!
SUPPORT. The Hilbert FIR (42_hilbert_fir.md): one push as a command, a block of pushes pair by pair, and the output of a
push over the samples seen so far.
-/

namespace Sys2Proof.Machine

/-- The state after HT.PUSH of `a`, `b`, issued by the host. -/
def pushed (a b : RealTerm) (s : State) : State :=
  { s with
    ht := pushPair a b s.ht
    ports := { opa := .finite a, opb := .finite b }
    resp := some (pushResponse s.params a b s.ht) }

/-- HT.PUSH of a finite pair, issued by the host, goes on (R106). -/
theorem issue_htPush (a b : RealTerm) (s : State) :
    issue .htPush { opa := .finite a, opb := .finite b } s = .next (pushed a b s) := rfl

@[simp] theorem pushSamples_nil (s : State) : pushSamples [] s = .next (s, []) := rfl

/-- A block of pushes is its first pair, then the rest (30_encoding.md R61). -/
theorem pushSamples_cons (a b : RealTerm) (xs : List RealTerm) (s : State) :
    pushSamples ((a :: b :: xs).map .finite) s =
      andThen (pushSamples (xs.map .finite) (pushed a b s)) fun out =>
        .next (out.1, (pushed a b s).outputPair :: out.2) := rfl

/-- The value of the quadrature sum (R106). -/
theorem val_quadSum (ρ : Nat → ℝ) (p : Params) (h : Hilbert) :
    (quadSum p h).val ρ = ∑ k ∈ Finset.range 24, (quadCoeff p k).val ρ * (h.tap (2 * k)).val ρ := by
  rw [quadSum, val_rSum, List.map_map, Finset.sum_eq_multiset_sum]
  simp only [Function.comp_def, val_rMul]
  rfl

/-- The value of the polarity (R106). -/
theorem val_polarity (ρ : Nat → ℝ) (sign : Bool) : (polarity sign).val ρ = if sign then -1 else 1 := by
  cases sign <;> simp [polarity]

/-- The outputs of HT.PUSH as real numbers (R106). -/
theorem val_pushResponse (ρ : Nat → ℝ) (p : Params) (a b : RealTerm) (h : Hilbert) :
    (pushResponse p a b h).ra.val ρ = (if h.sign then -1 else 1) * ((pushPair a b h).tap 23).val ρ ∧
    (pushResponse p a b h).rb.val ρ = (if h.sign then -1 else 1) *
      ∑ k ∈ Finset.range 24, (quadCoeff p k).val ρ * ((pushPair a b h).tap (2 * k)).val ρ := by
  simp only [pushResponse, val_rMul, val_polarity, val_quadSum, and_self]

end Sys2Proof.Machine
end

