-- ==== Sys2Proof/Laws/Golay.lean ====
section
/-!
SUPPORT. The Golay(24) decoder (43_golay24.md): the syndrome is linear, the error patterns are the words of weight 1 to
the radius, and what the decoder can answer.
-/

namespace Sys2Proof.Machine

theorem golayParity_xor (p : Params) (a b : BitVec 12) :
    golayParity p (a ^^^ b) = golayParity p a ^^^ golayParity p b := by
  unfold golayParity
  rw [bitsOf_xor, gf2Mul_xor _ _ _ (by simp)]

/-- The syndrome of a sum is the sum of the syndromes (R121). -/
theorem golaySyndrome_xor (p : Params) (a b : Word24) :
    golaySyndrome p (a ^^^ b) = golaySyndrome p a ^^^ golaySyndrome p b := by
  unfold golaySyndrome
  rw [slice_xor, slice_xor, golayParity_xor]
  ac_rfl

@[simp] theorem golaySyndrome_zero (p : Params) : golaySyndrome p 0#24 = 0#12 := by
  simpa using golaySyndrome_xor p 0#24 0#24

/-- A codeword by index (R119): information first, then parity. -/
theorem bit_golayEncode (p : Params) (info : BitVec 12) (i : Nat) :
    bit (golayEncode p info) i = if i < 12 then bit info i else bit (golayParity p info) (i - 12) :=
  bit_append _ _ _

/-- The lists made by `sublistsOf k` are the sublists of length `k`. -/
theorem mem_sublistsOf {α : Type} (k : Nat) (xs l : List α) :
    l ∈ sublistsOf k xs ↔ l.Sublist xs ∧ l.length = k := by
  induction xs generalizing k l with
  | nil =>
    cases k with
    | zero => simp [sublistsOf]
    | succ k => simp only [sublistsOf, List.not_mem_nil, List.sublist_nil, false_iff, not_and]; rintro rfl; simp
  | cons x xs ih =>
    cases k with
    | zero => simp only [sublistsOf, List.mem_singleton, List.length_eq_zero_iff]; constructor
              · rintro rfl; simp
              · exact fun h => h.2
    | succ k =>
      simp only [sublistsOf, List.mem_append, List.mem_map, ih, List.sublist_cons_iff]
      constructor
      · rintro (⟨r, ⟨hr, hl⟩, rfl⟩ | ⟨hr, hl⟩)
        · exact ⟨.inr ⟨r, rfl, hr⟩, by simp [hl]⟩
        · exact ⟨.inl hr, hl⟩
      · rintro ⟨hr | ⟨r, rfl, hr⟩, hl⟩
        · exact .inr ⟨hr, hl⟩
        · exact .inl ⟨r, ⟨hr, by simpa using hl⟩, rfl⟩

/-- The places of the ones of a vector, in order. -/
theorem onesAt_filter {n : Nat} (v : BitVec n) : onesAt n ((List.range n).filter (bit v)) = v := by
  apply eq_of_bit
  intro i hi
  simp [hi]

/-- The number of ones of a vector written by the places of its ones. -/
theorem wt_onesAt {n : Nat} {l : List Nat} (h : l.Sublist (List.range n)) : wt (onesAt n l) = l.length := by
  have hnd := h.nodup List.nodup_range
  rw [wt_eq_card, ← List.toFinset_card_of_nodup hnd]
  congr 1
  ext i
  have : i ∈ l → i < n := fun hi => List.mem_range.mp (h.subset hi)
  simp only [Finset.mem_filter, Finset.mem_range, bit_onesAt, List.mem_toFinset, Bool.and_eq_true, decide_eq_true_eq,
    List.contains_iff_mem]
  tauto

/-- The patterns tried are exactly the words of weight 1 to the radius (R122). -/
theorem mem_errorPatterns (radius : Nat) (e : Word24) : e ∈ errorPatterns radius ↔ 1 ≤ wt e ∧ wt e ≤ radius := by
  simp only [errorPatterns, List.mem_flatMap, List.mem_range, List.mem_map, mem_sublistsOf]
  constructor
  · rintro ⟨k, hk, l, ⟨hs, hl⟩, rfl⟩
    rw [wt_onesAt hs]; omega
  · intro ⟨h1, h2⟩
    refine ⟨wt e - 1, by omega, (List.range 24).filter (bit e), ⟨List.filter_sublist, ?_⟩, onesAt_filter e⟩
    rw [← wt_onesAt (n := 24) List.filter_sublist, onesAt_filter]; omega

/-- What the decoder can answer (R124): the word itself where the syndrome is 0, else the word with a pattern of weight
at most the radius and of the same syndrome removed, else the word itself, marked uncorrectable. -/
theorem golayDecode_cases (p : Params) (r : Word24) :
    (golaySyndrome p r = 0 ∧ golayDecode p r = (r, fecClean)) ∨
    (golaySyndrome p r ≠ 0 ∧ ∃ e : Word24, 1 ≤ wt e ∧ wt e ≤ p.golayRadius ∧
      golaySyndrome p e = golaySyndrome p r ∧ golayDecode p r = (r ^^^ e, fecCorrected)) ∨
    (golaySyndrome p r ≠ 0 ∧ (∀ e : Word24, 1 ≤ wt e → wt e ≤ p.golayRadius → golaySyndrome p e ≠ golaySyndrome p r) ∧
      golayDecode p r = (r, fecUncorrectable)) := by
  unfold golayDecode
  by_cases h : golaySyndrome p r = 0
  · exact .inl ⟨h, by rw [if_pos h]⟩
  · rw [if_neg h]
    cases hf : (errorPatterns p.golayRadius).find? (fun e => golaySyndrome p e = golaySyndrome p r) with
    | some e =>
      have hm := (mem_errorPatterns _ e).mp (List.mem_of_find?_eq_some hf)
      have hp := List.find?_some hf
      exact .inr (.inl ⟨h, e, hm.1, hm.2, by simpa using hp, rfl⟩)
    | none =>
      refine .inr (.inr ⟨h, fun e h1 h2 he => ?_, rfl⟩)
      exact List.find?_eq_none.mp hf e ((mem_errorPatterns _ e).mpr ⟨h1, h2⟩) (by simpa using he)

end Sys2Proof.Machine
end

