-- ==== Sys2Proof/Laws/PerInstr.lean ====
section
/-!
SUPPORT. What holds of every command as syntax, one lemma a constructor: its row of the opcode map (30_encoding.md R54).
-/

namespace Sys2Proof.Laws.RowMatches

/-- The opcode map has a row of the command's own mnemonic; the command's word selects it, and its immediate read back
from the word gives the command. -/
def Statement (i : Instr) : Prop :=
  ∃ r ∈ opcodeMap, r.mnemonic = i.mnemonic ∧ encode i &&& r.mask = r.pattern ∧ r.make (encode i) = i

/-- A command with no immediate: the row is found by evaluation. -/
theorem of_find {i : Instr} (h : (opcodeMap.find? fun r =>
    r.mnemonic == i.mnemonic && encode i &&& r.mask == r.pattern && r.make (encode i) == i).isSome) : Statement i := by
  obtain ⟨r, hr⟩ := Option.isSome_iff_exists.mp h
  have hp := List.find?_some hr
  simp only [Bool.and_eq_true, beq_iff_eq] at hp
  exact ⟨r, List.mem_of_find?_eq_some hr, hp.1.1, hp.1.2, hp.2⟩

theorem clReset : Statement .clReset := of_find (by decide)
theorem clInc : Statement .clInc := of_find (by decide)
theorem clAdj : Statement .clAdj := of_find (by decide)
theorem clVec : Statement .clVec := of_find (by decide)
theorem clIncvec : Statement .clIncvec := of_find (by decide)
theorem clCorr : Statement .clCorr := of_find (by decide)
theorem clSettrk (t : TrackingState) : Statement (.clSettrk t) := of_find (by cases t <;> decide)
theorem clSetauto (e : Bool) : Statement (.clSetauto e) := of_find (by cases e <;> decide)
theorem clStat : Statement .clStat := of_find (by decide)
theorem pmReset : Statement .pmReset := of_find (by decide)
theorem pmDet : Statement .pmDet := of_find (by decide)
theorem pmLost : Statement .pmLost := of_find (by decide)
theorem pmFerr : Statement .pmFerr := of_find (by decide)
theorem pmStat : Statement .pmStat := of_find (by decide)
theorem htReset : Statement .htReset := of_find (by decide)
theorem htPush : Statement .htPush := of_find (by decide)
theorem glDec : Statement .glDec := of_find (by decide)
theorem stExt : Statement .stExt := of_find (by decide)
theorem stDec : Statement .stDec := of_find (by decide)
theorem bpExt : Statement .bpExt := of_find (by decide)
theorem bpDeint : Statement .bpDeint := of_find (by decide)
theorem bpDec : Statement .bpDec := of_find (by decide)
theorem trDec : Statement .trDec := of_find (by decide)
theorem blkReset : Statement .blkReset := of_find (by decide)
theorem blkStat : Statement .blkStat := of_find (by decide)

end Sys2Proof.Laws.RowMatches
end

