-- ==== Sys2Proof/Laws/Real.lean ====
section
/-!
SUPPORT. The counted loops over the reals (40_costas_loop.md R67, R68, R76): where their results lie, and by how many
whole steps they differ from their arguments. A command that the host issues runs at once.
-/

namespace Sys2Proof.Machine

/-- A phase that is not negative loses whole turns (R67). -/
theorem normalizePhase_of_nonneg {p : ℝ} (hp : 0 ≤ p) :
    normalizePhase p = p - 2 * Real.pi * (⌊p / (2 * Real.pi)⌋₊ : ℝ) ∧ 0 ≤ normalizePhase p ∧
      normalizePhase p < 2 * Real.pi := by
  have hpi := Real.two_pi_pos
  have h1 := Nat.floor_le (div_nonneg hp hpi.le)
  have h2 := Nat.lt_floor_add_one (p / (2 * Real.pi))
  rw [le_div_iff₀ hpi] at h1
  rw [div_lt_iff₀ hpi] at h2
  have h3 : ⌊-(p - 2 * Real.pi * (⌊p / (2 * Real.pi)⌋₊ : ℝ)) / (2 * Real.pi)⌋₊ = 0 :=
    Nat.floor_of_nonpos (div_nonpos_of_nonpos_of_nonneg (by linarith) hpi.le)
  have h4 : normalizePhase p = p - 2 * Real.pi * (⌊p / (2 * Real.pi)⌋₊ : ℝ) := by simp only [normalizePhase, h3, Nat.cast_zero, mul_zero, add_zero]
  exact ⟨h4, by rw [h4]; linarith, by rw [h4]; linarith⟩

/-- A phase that is not positive gains whole turns (R67). -/
theorem normalizePhase_of_nonpos {p : ℝ} (hp : p ≤ 0) :
    normalizePhase p = p + 2 * Real.pi * (⌊-p / (2 * Real.pi)⌋₊ : ℝ) ∧ -(2 * Real.pi) < normalizePhase p ∧
      normalizePhase p ≤ 0 := by
  have hpi := Real.two_pi_pos
  have h3 : ⌊p / (2 * Real.pi)⌋₊ = 0 := Nat.floor_of_nonpos (div_nonpos_of_nonpos_of_nonneg hp hpi.le)
  have h1 := Nat.floor_le (div_nonneg (neg_nonneg.2 hp) hpi.le)
  have h2 := Nat.lt_floor_add_one (-p / (2 * Real.pi))
  rw [le_div_iff₀ hpi] at h1
  rw [div_lt_iff₀ hpi] at h2
  have h4 : normalizePhase p = p + 2 * Real.pi * (⌊-p / (2 * Real.pi)⌋₊ : ℝ) := by simp [normalizePhase, h3]
  exact ⟨h4, by rw [h4]; linarith, by rw [h4]; linarith⟩

/-- A normalized phase is in the open interval of 10_state.md R20. -/
theorem normalizePhase_range (p : ℝ) : -(2 * Real.pi) < normalizePhase p ∧ normalizePhase p < 2 * Real.pi := by
  have hpi := Real.two_pi_pos
  rcases le_total 0 p with h | h
  · obtain ⟨-, h1, h2⟩ := normalizePhase_of_nonneg h
    exact ⟨by linarith, h2⟩
  · obtain ⟨-, h1, h2⟩ := normalizePhase_of_nonpos h
    exact ⟨h1, by linarith⟩

/-- Normalization takes away whole turns. -/
theorem normalizePhase_turns (p : ℝ) : ∃ k : ℤ, normalizePhase p = p - 2 * Real.pi * k := by
  rcases le_total 0 p with h | h
  · exact ⟨⌊p / (2 * Real.pi)⌋₊, by rw [(normalizePhase_of_nonneg h).1]; push_cast; ring⟩
  · exact ⟨-⌊-p / (2 * Real.pi)⌋₊, by rw [(normalizePhase_of_nonpos h).1]; push_cast; ring⟩

/-- The frequency clamp keeps its bounds (10_state.md R21). -/
theorem clampFreqReal_range {b : ℝ} (hb : 0 ≤ b) (f : ℝ) : -b ≤ clampFreqReal b f ∧ clampFreqReal b f ≤ b := by
  simp only [clampFreqReal, clampReal]
  split
  · exact ⟨le_refl _, by linarith⟩
  · split
    · exact ⟨by linarith, le_refl _⟩
    · exact ⟨by linarith, by linarith⟩

/-- A frequency within the bounds, bounds included, is not wrapped (R76). -/
theorem wrapFreqReal_within {m f : ℝ} (hm : 0 < m) (h1 : -m ≤ f) (h2 : f ≤ m) : wrapFreqReal m f = f := by
  have h2m : 0 ≤ 2 * m := by linarith
  have e1 : ⌈(f - m) / (2 * m)⌉₊ = 0 := Nat.ceil_eq_zero.2 (div_nonpos_of_nonpos_of_nonneg (by linarith) h2m)
  have e2 : ⌈(-m - f) / (2 * m)⌉₊ = 0 := Nat.ceil_eq_zero.2 (div_nonpos_of_nonpos_of_nonneg (by linarith) h2m)
  simp [wrapFreqReal, e1, e2]

/-- A frequency above the bound loses steps of `2*m` until it is within (R76). -/
theorem wrapFreqReal_above {m f : ℝ} (hm : 0 < m) (h : m < f) :
    -m < wrapFreqReal m f ∧ wrapFreqReal m f ≤ m ∧ ∃ k : ℕ, wrapFreqReal m f = f - 2 * m * k := by
  have h2m : 0 < 2 * m := by linarith
  have c1 := Nat.le_ceil ((f - m) / (2 * m))
  have c2 := Nat.ceil_lt_add_one (a := (f - m) / (2 * m)) (div_nonneg (by linarith) h2m.le)
  rw [div_le_iff₀ h2m] at c1
  have c3 := mul_lt_mul_of_pos_right c2 h2m
  rw [add_mul, div_mul_cancel₀ _ h2m.ne', one_mul] at c3
  have e2 : ⌈(-m - (f - 2 * m * (⌈(f - m) / (2 * m)⌉₊ : ℝ))) / (2 * m)⌉₊ = 0 :=
    Nat.ceil_eq_zero.2 (div_nonpos_of_nonpos_of_nonneg (by linarith) h2m.le)
  have e3 : wrapFreqReal m f = f - 2 * m * (⌈(f - m) / (2 * m)⌉₊ : ℝ) := by simp [wrapFreqReal, e2]
  exact ⟨by rw [e3]; linarith, by rw [e3]; linarith, _, e3⟩

/-- A frequency below the bound gains steps of `2*m` until it is within (R76). -/
theorem wrapFreqReal_below {m f : ℝ} (hm : 0 < m) (h : f < -m) :
    -m ≤ wrapFreqReal m f ∧ wrapFreqReal m f < m ∧ ∃ k : ℕ, wrapFreqReal m f = f + 2 * m * k := by
  have h2m : 0 < 2 * m := by linarith
  have e1 : ⌈(f - m) / (2 * m)⌉₊ = 0 := Nat.ceil_eq_zero.2 (div_nonpos_of_nonpos_of_nonneg (by linarith) h2m.le)
  have c1 := Nat.le_ceil ((-m - f) / (2 * m))
  have c2 := Nat.ceil_lt_add_one (a := (-m - f) / (2 * m)) (div_nonneg (by linarith) h2m.le)
  rw [div_le_iff₀ h2m] at c1
  have c3 := mul_lt_mul_of_pos_right c2 h2m
  rw [add_mul, div_mul_cancel₀ _ h2m.ne', one_mul] at c3
  have e3 : wrapFreqReal m f = f + 2 * m * (⌈(-m - f) / (2 * m)⌉₊ : ℝ) := by simp [wrapFreqReal, e1]
  exact ⟨by rw [e3]; linarith, by rw [e3]; linarith, _, e3⟩

/-- A wrapped frequency keeps its bounds (10_state.md R21). -/
theorem wrapFreqReal_range {m : ℝ} (hm : 0 < m) (f : ℝ) : -m ≤ wrapFreqReal m f ∧ wrapFreqReal m f ≤ m := by
  rcases lt_or_ge m f with h | h
  · exact ⟨(wrapFreqReal_above hm h).1.le, (wrapFreqReal_above hm h).2.1⟩
  · rcases lt_or_ge f (-m) with h' | h'
    · exact ⟨(wrapFreqReal_below hm h').1, (wrapFreqReal_below hm h').2.1.le⟩
    · rw [wrapFreqReal_within hm h' h]; exact ⟨h', h⟩

/-- MAX_FREQ is positive (00_scope.md R8, R9). -/
theorem maxFreqReal_pos {ρ : Nat → ℝ} {p : Params} (h : p.RatesPositive ρ) : 0 < maxFreqReal ρ p := by
  have h1 := h.1
  have h2 := h.2
  have h3 := Real.pi_pos
  unfold maxFreqReal
  positivity

/-- A command that the host issues runs with its operands on the ports (30_encoding.md R49). -/
theorem issue_eq_exec (i : Instr) (ports : Ports) (s : State) : issue i ports s = exec i { s with ports := ports } := by
  cases i with
  | clSettrk t => cases t <;> rfl
  | clSetauto e => cases e <;> rfl
  | _ => rfl

end Sys2Proof.Machine
end

