-- ==== Sys2Proof/Laws/Trellis.lean ====
section
/-!
SUPPORT. The Viterbi search (46_trellis_3_4.md R170): the best branch into a state, and what the metrics and the
predecessors say of all paths after each step.
-/

namespace Sys2Proof.Machine

/-! ### One branch -/

/-- The best branch into state `t`: there is none exactly where no state has a metric; else it is a least one, and of
the least the one from the lowest state. -/
theorem bestBranch_spec (p : Params) (r : BitVec 4) (t s : Nat) (ms : List (Option Nat)) :
    match bestBranch p r t s ms with
    | none => ∀ k c : Nat, ms[k]? ≠ some (some c)
    | some (c, q) =>
      (∃ k c0 : Nat, ms[k]? = some (some c0) ∧ q = s + k ∧ c = c0 + wt (r ^^^ branchPattern p q t)) ∧
      ∀ k c1 : Nat, ms[k]? = some (some c1) →
        c ≤ c1 + wt (r ^^^ branchPattern p (s + k) t) ∧ (c = c1 + wt (r ^^^ branchPattern p (s + k) t) → q ≤ s + k) := by
  induction ms generalizing s with
  | nil => simp [bestBranch]
  | cons m ms ih =>
    have ih := ih (s + 1)
    rw [bestBranch.eq_def]
    dsimp only
    cases hb : bestBranch p r t (s + 1) ms with
    | none =>
      rw [hb] at ih
      cases m with
      | none =>
        intro k c h
        cases k with
        | zero => simp at h
        | succ k => exact ih k c h
      | some c =>
        refine ⟨⟨0, c, rfl, rfl, rfl⟩, fun k c1 h => ?_⟩
        cases k with
        | zero => obtain rfl : c = c1 := by simpa using h
                  exact ⟨le_refl _, fun _ => le_refl _⟩
        | succ k => exact absurd h (ih k c1)
    | some b =>
      obtain ⟨c', q'⟩ := b
      rw [hb] at ih
      obtain ⟨⟨k0, c0, hk, hq, hc⟩, hmin⟩ := ih
      have hlift : ∀ k, s + 1 + k = s + (k + 1) := fun k => by omega
      cases m with
      | none =>
        refine ⟨⟨k0 + 1, c0, hk, by omega, hc⟩, fun k c1 h => ?_⟩
        cases k with
        | zero => simp at h
        | succ k => rw [← hlift]; exact hmin k c1 h
      | some c =>
        dsimp only
        by_cases hlt : c' < c + wt (r ^^^ branchPattern p s t)
        · rw [if_pos hlt]
          refine ⟨⟨k0 + 1, c0, hk, by omega, hc⟩, fun k c1 h => ?_⟩
          cases k with
          | zero =>
            obtain rfl : c = c1 := by simpa using h
            exact ⟨by simpa using hlt.le, fun e => absurd e (by simpa using hlt.ne)⟩
          | succ k => rw [← hlift]; exact hmin k c1 h
        · rw [if_neg hlt]
          refine ⟨⟨0, c, rfl, rfl, rfl⟩, fun k c1 h => ?_⟩
          cases k with
          | zero =>
            obtain rfl : c = c1 := by simpa using h
            exact ⟨le_refl _, fun _ => le_refl _⟩
          | succ k =>
            have := (hmin k c1 h).1
            rw [hlift] at this
            exact ⟨by omega, fun _ => by omega⟩

/-! ### Paths -/

/-- The state after a path of tribits from state `s`: the last tribit (R165). -/
def endState (s : Nat) (ts : List Nat) : Nat := ts.getLastD s

theorem length_sentPatterns (p : Params) (s : Nat) (ts : List Nat) : (sentPatterns p s ts).length = ts.length := by
  induction ts generalizing s with
  | nil => rfl
  | cons t ts ih => simp [sentPatterns, ih]

/-- One more tribit sends one more pattern. -/
theorem sentPatterns_snoc (p : Params) (s : Nat) (ts : List Nat) (t : Nat) :
    sentPatterns p s (ts ++ [t]) = sentPatterns p s ts ++ [branchPattern p (endState s ts) t] := by
  induction ts generalizing s with
  | nil => rfl
  | cons x ts ih =>
    rw [List.cons_append, sentPatterns, ih, sentPatterns, List.cons_append]
    cases ts <;> rfl

@[simp] theorem endState_snoc (s : Nat) (ts : List Nat) (t : Nat) : endState s (ts ++ [t]) = t := by
  simp [endState]

/-- One more point adds its branch cost. -/
theorem pointDistance_snoc (rs qs : List (BitVec 4)) (r q : BitVec 4) (h : rs.length = qs.length) :
    pointDistance (rs ++ [r]) (qs ++ [q]) = pointDistance rs qs + wt (r ^^^ q) := by
  simp [pointDistance, List.zipWith_append h]

/-- Four bits a point. -/
theorem pointDistance_le (rs qs : List (BitVec 4)) : pointDistance rs qs ≤ 4 * rs.length := by
  induction rs generalizing qs with
  | nil => simp [pointDistance]
  | cons r rs ih =>
    cases qs with
    | nil => simp [pointDistance]
    | cons q qs =>
      have h1 := ih qs
      have h2 := wt_le (r ^^^ q)
      simp only [pointDistance, List.zipWith_cons_cons, List.sum_cons, List.length_cons] at h1 ⊢
      omega

/-- The cost of a path against received points: the bits in which they differ (R170). -/
def pathCost (p : Params) (rs : List (BitVec 4)) (ts : List Nat) : Nat := pointDistance rs (sentPatterns p 0 ts)

theorem pathCost_snoc (p : Params) (rs : List (BitVec 4)) (r : BitVec 4) (ts : List Nat) (t : Nat)
    (h : rs.length = ts.length) :
    pathCost p (rs ++ [r]) (ts ++ [t]) = pathCost p rs ts + wt (r ^^^ branchPattern p (endState 0 ts) t) := by
  rw [pathCost, sentPatterns_snoc, pointDistance_snoc _ _ _ _ (by rw [length_sentPatterns, h]), pathCost]

/-- `ts` is a path over `n` points that ends in state `t`. -/
def IsPath (n t : Nat) (ts : List Nat) : Prop := ts.length = n ∧ (∀ x ∈ ts, x < 8) ∧ endState 0 ts = t

theorem endState_lt {n t : Nat} {ts : List Nat} (h : IsPath n t ts) : t < 8 := by
  obtain ⟨-, hlt, rfl⟩ := h
  rcases List.eq_nil_or_concat ts with rfl | ⟨ts', x, rfl⟩
  · decide
  · rw [List.concat_eq_append, endState_snoc]
    exact hlt x (by simp)

theorem isPath_snoc {n t : Nat} {ts : List Nat} (h : ∃ s, IsPath n s ts) (ht : t < 8) : IsPath (n + 1) t (ts ++ [t]) := by
  obtain ⟨s, hl, hx, -⟩ := h
  refine ⟨by simp [hl], fun x hm => ?_, endState_snoc 0 ts t⟩
  rcases List.mem_append.mp hm with hm | hm
  · exact hx x hm
  · rw [List.mem_singleton.mp hm]; exact ht

/-- A path over one point more is a path and a last tribit. -/
theorem isPath_succ {n t : Nat} {ts : List Nat} (h : IsPath (n + 1) t ts) :
    ∃ ts', ts = ts' ++ [t] ∧ t < 8 ∧ IsPath n (endState 0 ts') ts' := by
  have ht := endState_lt h
  obtain ⟨hl, hx, he⟩ := h
  rcases List.eq_nil_or_concat ts with rfl | ⟨ts', x, rfl⟩
  · simp at hl
  · rw [List.concat_eq_append] at hl hx he ⊢
    rw [endState_snoc] at he
    subst he
    exact ⟨ts', rfl, ht, by simpa using hl, fun y hy => hx y (by simp [hy]), rfl⟩

/-! ### The trace back and the search -/

theorem traceback_append (t : Nat) (preds : List (List Nat)) (acc : List Nat) :
    traceback t preds acc = traceback t preds [] ++ acc := by
  induction preds generalizing t acc with
  | nil => rfl
  | cons pr preds ih => rw [traceback, ih, traceback, ih _ [t], List.append_assoc]; rfl

/-- The last tribit of a trace is the state it starts from. -/
theorem traceback_cons (t : Nat) (pr : List Nat) (preds : List (List Nat)) :
    traceback t (pr :: preds) [] = traceback (pr.getD t 0) preds [] ++ [t] := by
  rw [traceback, traceback_append]

/-- What the search knows after the points `rs`: a state's metric is the cost of the path traced back from it, and no
path to the state costs less; a state without a metric has no path. -/
def Searched (p : Params) (rs : List (BitVec 4)) (m : Metrics) (preds : List (List Nat)) : Prop :=
  ∀ t < 8,
    (∀ c, m[t]? = some (some c) → IsPath rs.length t (traceback t preds []) ∧ pathCost p rs (traceback t preds []) = c) ∧
    ∀ ts, IsPath rs.length t ts → ∃ c, m[t]? = some (some c) ∧ c ≤ pathCost p rs ts

theorem searched_start (p : Params) : Searched p [] startMetrics [] := by
  intro t ht
  refine ⟨fun c hc => ?_, fun ts h => ?_⟩
  · have : t = 0 ∧ c = 0 := by
      interval_cases t <;> simp [startMetrics] at hc
      exact ⟨rfl, hc.symm⟩
    obtain ⟨rfl, rfl⟩ := this
    exact ⟨⟨rfl, by simp [traceback], rfl⟩, rfl⟩
  · obtain rfl : ts = [] := List.length_eq_zero_iff.mp h.1
    obtain rfl : 0 = t := h.2.2
    exact ⟨0, rfl, Nat.zero_le _⟩

theorem getElem?_stepMetrics (p : Params) (m : Metrics) (r : BitVec 4) {t : Nat} (ht : t < 8) :
    (stepMetrics (trellisStep p m r))[t]? = some ((bestBranch p r t 0 m).map (·.1)) := by
  simp [stepMetrics, trellisStep, ht]

theorem getD_stepPreds (p : Params) (m : Metrics) (r : BitVec 4) {t : Nat} (ht : t < 8) :
    (stepPreds (trellisStep p m r)).getD t 0 = ((bestBranch p r t 0 m).map (·.2)).getD 0 := by
  simp [stepPreds, trellisStep, ht]

/-- One step of the search keeps what it knows. -/
theorem searched_step {p : Params} {rs : List (BitVec 4)} {m : Metrics} {preds : List (List Nat)}
    (h : Searched p rs m preds) (hm : m.length = 8) (r : BitVec 4) :
    Searched p (rs ++ [r]) (stepMetrics (trellisStep p m r)) (stepPreds (trellisStep p m r) :: preds) := by
  intro t ht
  have hb := bestBranch_spec p r t 0 m
  rw [getElem?_stepMetrics p m r ht, traceback_cons, getD_stepPreds p m r ht, List.length_append, List.length_singleton]
  refine ⟨fun c hc => ?_, fun ts hp => ?_⟩
  · cases hbb : bestBranch p r t 0 m with
    | none => rw [hbb] at hc; simp at hc
    | some b =>
      obtain ⟨c', q⟩ := b
      rw [hbb] at hb hc
      obtain ⟨⟨k, c0, hk, hq, hcost⟩, -⟩ := hb
      obtain rfl : c' = c := by simpa using hc
      obtain rfl : q = k := by omega
      have hk8 : q < 8 := by
        obtain ⟨h', -⟩ := List.getElem?_eq_some_iff.mp hk
        omega
      obtain ⟨hpath, hcq⟩ := (h q hk8).1 c0 hk
      refine ⟨isPath_snoc ⟨q, hpath⟩ ht, ?_⟩
      show pathCost p (rs ++ [r]) (traceback q preds [] ++ [t]) = c'
      rw [pathCost_snoc p rs r _ t hpath.1.symm, hcq, hpath.2.2, hcost]
  · obtain ⟨ts', rfl, -, hp'⟩ := isPath_succ hp
    obtain ⟨c0, hc0, hle⟩ := (h _ (endState_lt hp')).2 ts' hp'
    rw [pathCost_snoc p rs r ts' t hp'.1.symm]
    cases hbb : bestBranch p r t 0 m with
    | none => rw [hbb] at hb; exact absurd hc0 (hb _ c0)
    | some b =>
      obtain ⟨c, q⟩ := b
      rw [hbb] at hb
      have := (hb.2 _ c0 hc0).1
      rw [Nat.zero_add] at this
      exact ⟨c, rfl, by omega⟩

theorem length_stepMetrics (p : Params) (m : Metrics) (r : BitVec 4) : (stepMetrics (trellisStep p m r)).length = 8 := by
  simp [stepMetrics, trellisStep]

/-- What the search knows after all the points. -/
theorem searched_forward {p : Params} (rs : List (BitVec 4)) {before : List (BitVec 4)} {m : Metrics}
    {preds : List (List Nat)} (h : Searched p before m preds) (hm : m.length = 8) :
    Searched p (before ++ rs) (viterbiForward p m preds rs).1 (viterbiForward p m preds rs).2 := by
  induction rs generalizing before m preds with
  | nil => simpa [viterbiForward] using h
  | cons r rs ih =>
    rw [viterbiForward, List.append_cons]
    have := ih (searched_step h hm r) (length_stepMetrics p m r)
    exact this

/-! ### Payloads as paths -/

theorem length_dataTribits (m : BitVec 144) : (dataTribits m).length = 49 := by simp [dataTribits]

theorem toNat_slice_three (m : BitVec 144) (j : Nat) : (slice m (3 * j) 3).toNat < 8 := (slice m (3 * j) 3).isLt

/-- The tribits of data, with the flush tribit, are a path back to state 0 (R165). -/
theorem isPath_dataTribits (m : BitVec 144) : IsPath 49 0 (dataTribits m) := by
  refine ⟨length_dataTribits m, fun x hx => ?_, endState_snoc _ _ _⟩
  rcases List.mem_append.mp hx with hx | hx
  · obtain ⟨j, -, rfl⟩ := List.mem_map.mp hx
    exact toNat_slice_three m j
  · rw [List.mem_singleton.mp hx]; decide

/-- The payload of a path back to state 0 has that path as its tribits (R170). -/
theorem dataTribits_tribitPayload {ts : List Nat} (h : IsPath 49 0 ts) : dataTribits (tribitPayload ts) = ts := by
  obtain ⟨ts', rfl, -, hp⟩ := isPath_succ h
  rw [dataTribits, List.append_left_inj]
  refine List.ext_getElem (by simp [hp.1]) fun j hj hj' => ?_
  have hj48 : j < 48 := by simpa using hj
  have hget : (ts' ++ [0]).getD j 0 = ts'[j] := by
    rw [List.getD_eq_getElem _ _ (by simp; omega), List.getElem_append_left hj']
  have hlt : ts'[j] < 8 := hp.2.1 _ (List.getElem_mem _)
  rw [List.getElem_map, List.getElem_range]
  have : slice (tribitPayload (ts' ++ [0])) (3 * j) 3 = BitVec.ofNat 3 ts'[j] := by
    refine eq_of_bit fun i hi => ?_
    have h1 : (3 * j + i) / 3 = j := by omega
    have h2 : (3 * j + i) % 3 = i := by omega
    have h3 : 3 * j + i < 144 := by omega
    simp only [bit_slice, hi, tribitPayload, bit_ofBits, h1, h2, h3, hget, decide_true, Bool.true_and]
    simp only [bit, BitVec.getMsbD, hi, decide_true, Bool.true_and, BitVec.getLsbD_ofNat]
    rw [show 3 - 1 - i = 2 - i by omega, decide_eq_true (show 2 - i < 3 by omega), Bool.true_and]
  rw [this, BitVec.toNat_ofNat, Nat.mod_eq_of_lt hlt]

end Sys2Proof.Machine
end

