-- ==== Sys2Proof/Tests/Slice0.lean ====
section
/-!
SUPPORT. The model's own tests. Every expected value is from the spec: 95_test_vectors.md with its parameter set EX,
or a table written out in the section named.
-/

namespace Sys2Proof.Tests

open Machine

-- One theorem after another: as parallel tasks the kernel evaluations below take more memory than a check allows.
set_option Elab.async false

/-! ### The parameter set EX of 95_test_vectors.md -/

/-- `2*pi/d`, a loop bandwidth of EX. -/
def turnOver (d : ℚ) : RealTerm := .div (.mul (.rat 2) .pi) (.rat d)

/-- A (24,12) parity matrix that meets 43_golay24.md R120. -/
def exGolay : Vector (BitVec 12) 12 :=
  #v[0xdc5, 0xb8b, 0x717, 0xe2d, 0xc5b, 0x8b7, 0x16f, 0x2dd, 0x5b9, 0xb71, 0x6e3, 0xffe]

/-- The half-band prototype of EX. -/
def exHalfband : Vector RealTerm 47 :=
  ⟨((List.range 47).map fun n =>
    RealTerm.rat (if n = 22 ∨ n = 24 then 3 / 10 else if n = 23 then 1 / 2 else 0)).toArray, by simp⟩

def ex : Params := { bootParams with
  symbolRate := .rat 4800
  sampleRate := .rat 48000
  bwSearching := .rat (1 / 10)
  bwCoarse := turnOver 100
  bwFine := turnOver 400
  bwLocked := turnOver 800
  maxSyncCount := 3
  syncLevel := [.searching, .coarse, .fine, .locked]
  syncReportThreshold := 1
  halfband47 := exHalfband
  golay24P := exGolay
  hamming15P := #v[3, 5, 6, 7, 9, 10, 11, 12, 13, 14, 15]
  hamming13P := #v[3, 5, 6, 7, 9, 10, 11, 12, 13]
  viterbiFailMetric := some 4 }

/-- The instance EX right after reset. -/
def start : State := State.initial ex

/-- Running one command with operands. -/
def run (i : Instr) (p : Ports) (s : State) : Result := exec i { s with ports := p }

/-- The next state, and `s` itself where there is none. -/
def after (o : Result) (s : State) : State :=
  match o with
  | .next t => t
  | .fault _ => s
  | .refused _ => s

/-- The response of one command with operands. -/
def answer (i : Instr) (p : Ports) (s : State) : Option Response := (after (run i p s) { s with resp := none }).resp

/-- A state of EX with the given phase and frequency. -/
def loopAt (phase freq : ℚ) : State := { start with cl := { start.cl with phase := .rat phase, freq := .rat freq } }

/-- A state of EX with the given count, level and tracking state. -/
def monitorAt (c : BitVec 16) (l t : TrackingState) : State :=
  { setTracking t start with pm := { count := c, level := l } }

/-! ### Approximate values, for the decimal vectors: fixed point with 18 decimals -/

def scale : Int := 10 ^ 18
def twoPi : Int := 6283185307179586477

/-- A square root by Newton's method. -/
def sqrtLoop : Nat → Int → Int → Int
  | 0, _, y => y
  | n + 1, x, y => sqrtLoop n x ((y + x * scale / y) / 2)

/-- `x - x^3/3! + ...` or `1 - x^2/2! + ...`, from the term `t` of degree `k`. -/
def trigLoop : Nat → Int → Int → Int → Int
  | 0, _, _, _ => 0
  | n + 1, x, t, k => t + trigLoop n x (-(t * x / scale * x / scale / ((k + 1) * (k + 2)))) (k + 2)

/-- `x` moved by `by_` while it is above `hi`. -/
def lowerLoop (hi by_ : Int) : Nat → Int → Int
  | 0, x => x
  | n + 1, x => if hi < x then lowerLoop hi by_ n (x - by_) else x

def approx : RealTerm → Int
  | .rat q => q.num * scale / q.den
  | .atom _ => 0
  | .pi => twoPi / 2
  | .add a b => approx a + approx b
  | .sub a b => approx a - approx b
  | .mul a b => approx a * approx b / scale
  | .div a b => approx a * scale / approx b
  | .sqrt a => sqrtLoop 60 (approx a) (approx a + 1)
  | .cos a => trigLoop 16 (approx a) scale 0
  | .sin a => trigLoop 16 (approx a) (approx a) 1
  | .normPhase p => -lowerLoop (twoPi - 1) twoPi 20 (-lowerLoop (twoPi - 1) twoPi 20 (approx p))
  | .clampFreq m f => max (-approx m) (min (approx m) (approx f))
  | .wrapFreq m f =>
    -lowerLoop (approx m) (2 * approx m) 20 (-lowerLoop (approx m) (2 * approx m) 20 (approx f))

/-- The term is `n / 10^12` within 1e-11. -/
def near (t : RealTerm) (n : Int) : Bool := (approx t - n * 10 ^ 6).natAbs ≤ 10 ^ 7

/-! ### Decoding (30_encoding.md R54, R57, R58; the words are written out from the map's UNIT, OP, IMM) -/

theorem test_decode_costas :
    decode 0b0000000000000000 = some .clReset ∧ decode 0b0000000100000000 = some .clInc ∧
    decode 0b0000001000000000 = some .clAdj ∧ decode 0b0000001100000000 = some .clVec ∧
    decode 0b0000010000000000 = some .clIncvec ∧ decode 0b0000010100000000 = some .clCorr ∧
    decode 0b0000011000000000 = some (.clSettrk .searching) ∧ decode 0b0000011000000001 = some (.clSettrk .coarse) ∧
    decode 0b0000011000000010 = some (.clSettrk .fine) ∧ decode 0b0000011000000011 = some (.clSettrk .locked) ∧
    decode 0b0000011100000000 = some (.clSetauto false) ∧ decode 0b0000011100000001 = some (.clSetauto true) ∧
    decode 0b0000100000000000 = some .clStat := by decide

theorem test_decode_monitor :
    decode 0b0001000000000000 = some .pmReset ∧ decode 0b0001000100000000 = some .pmDet ∧
    decode 0b0001001000000000 = some .pmLost ∧ decode 0b0001001100000000 = some .pmFerr ∧
    decode 0b0001010000000000 = some .pmStat := by decide

theorem test_decode_fir_and_fec :
    decode 0b0010000000000000 = some .htReset ∧ decode 0b0010000100000000 = some .htPush ∧
    decode 0b0011000000000000 = some .glDec ∧ decode 0b0100000000000000 = some .stExt ∧
    decode 0b0100000100000000 = some .stDec ∧ decode 0b0101000000000000 = some .bpExt ∧
    decode 0b0101000100000000 = some .bpDeint ∧ decode 0b0101001000000000 = some .bpDec ∧
    decode 0b0110000000000000 = some .trDec := by decide

theorem test_decode_block :
    decode 0b1111000000000000 = some .blkReset ∧ decode 0b1111000100000000 = some .blkStat := by decide

/-- 95_test_vectors.md 2.1, the words that are rejected. -/
theorem test_decode_rejects :
    [(0x0001 : CmdWord), 0x0604, 0x0702, 0x0900, 0x1500, 0x2200, 0x3100, 0x4200, 0x5300, 0x6001, 0x7000, 0xEFFF,
      0xF200, 0xFFFF].all (fun w => decode w = none) = true := by decide +kernel

/-- The host's readings of the table words agree with the words written out above. -/
theorem test_table_words :
    decodeTableWord 16 0x0603 = some (.clSettrk .locked) ∧ decodeTableWord 16 0xF100 = some .blkStat ∧
    decodeTableWord 16 0x0604 = none ∧ decodeTableWord 16 0x10000 = none := by decide

/-! ### Well-formedness (70_reset_and_hazards.md R193 (a), 42_hilbert_fir.md R109) -/

theorem test_illformed_adj : Instr.wellFormed .clAdj { opa := .nan } = false := by decide
theorem test_illformed_corr : Instr.wellFormed .clCorr { opa := .posInf } = false := by decide
theorem test_illformed_ferr : Instr.wellFormed .pmFerr { opa := .negInf } = false := by decide
theorem test_illformed_push_first : Instr.wellFormed .htPush { opa := .nan } = false := by decide
theorem test_illformed_push_second : Instr.wellFormed .htPush { opb := .nan } = false := by decide
theorem test_unread_port_ignored : Instr.wellFormed .clInc { opa := .nan, opb := .nan } = true := by decide
theorem test_illformed_odd_block :
    PseudoCommand.wellFormed (.htFilter [.finite (.rat 1)] 0) = false := by decide +kernel
theorem test_illformed_block_sample :
    PseudoCommand.wellFormed (.htFilter [.finite (.rat 1), .nan] 0) = false := by decide +kernel

/-! ### The step (30_encoding.md R49, 60_exceptions.md R174, R177) -/

theorem test_reject_from_reset : step (start.withFetchWord 16 0x7000) =
    .next { start with err := { flag := true, cause := 1, cmd := 0x7000 }, resp := some { status := true } } := by
  rfl

theorem test_fetch_runs_the_word : step (State.reset.withFetchWord 16 0x0701) =
    exec (.clSetauto true) State.reset := by rfl

theorem test_fetch_keeps_operands :
    step ({ start with pending := [.command 0x0000 { w24 := 5 }, .resetInput] }.withFetchWord 16 0x3000) =
      exec .glDec { start with ports := { w24 := 5 }, pending := [.resetInput] } := by rfl

/-- Every legal word, presented at reset, runs in the next step. -/
theorem test_every_word_runs_from_reset :
    legalWords.all (fun w => match step (State.reset.withFetchWord 16 w.toNat) with
      | .next _ => true
      | .fault _ => false
      | .refused _ => false) = true := by decide +kernel

/-! ### The Costas loop (95_test_vectors.md 2.2) -/

theorem test_cl_reset :
    let s := after (exec .clReset { loopAt 3 2 with cl := { (setTracking .fine (loopAt 3 2)).cl with auto := true } }) start
    s.cl.phase = .rat 0 ∧ s.cl.freq = .rat 0 ∧ s.cl.trk = .searching ∧ s.cl.auto = false ∧
      near s.cl.alpha 245646574942 = true ∧ near s.cl.beta 34739671783 = true := by decide +kernel

theorem test_cl_inc_wraps :
    near (after (exec .clInc (loopAt (62 / 10) (3 / 10))) start).cl.phase 216814692820 = true := by decide +kernel

theorem test_cl_inc_wraps_negative :
    near (after (exec .clInc (loopAt (-62 / 10) (-3 / 10))) start).cl.phase (-216814692820) = true := by decide +kernel

theorem test_cl_adj :
    let s := after (run .clAdj { opa := .finite (.rat (1 / 2)) } start) start
    near s.cl.freq 17369835892 = true ∧ near s.cl.phase 140193123363 = true ∧ s.resp = some {} := by decide +kernel

theorem test_cl_adj_clamps :
    let s := after (run .clAdj { opa := .finite (.rat (-100)) } start) start
    near s.cl.freq (-314159265359) = true ∧ near s.cl.phase (-2905883443800) = true := by decide +kernel

theorem test_cl_vec :
    let r := (answer .clVec {} (loopAt (140193123363 / 10 ^ 12) 0)).getD {}
    near r.ra 990189028711 = true ∧ near r.rb 139734345884 = true := by decide +kernel

theorem test_cl_incvec :
    let r := (answer .clIncvec {} (loopAt (140193123363 / 10 ^ 12) (173698358917 / 10 ^ 13))).getD {}
    near r.ra 987612616300 = true ∧ near r.rb 156911822772 = true := by decide +kernel

theorem test_cl_corr_wraps :
    near (after (run .clCorr { opa := .finite (.rat (1 / 10)) } (loopAt 0 (3 / 10))) start).cl.freq (-228318530718) =
      true := by decide +kernel

theorem test_cl_corr_wraps_three_times :
    near (after (run .clCorr { opa := .finite (.rat 2) } (loopAt 0 (1 / 10))) start).cl.freq 215044407846 = true := by
  decide +kernel

theorem test_cl_settrk :
    let s := after (exec (.clSettrk .locked) (loopAt 1 (1 / 5))) start
    s.cl.trk = .locked ∧ near s.cl.alpha 21969044794 = true ∧ near s.cl.beta 244014736 = true ∧
      s.cl.phase = .rat 1 ∧ s.cl.freq = .rat (1 / 5) := by decide +kernel

theorem test_cl_setauto : (after (exec (.clSetauto true) start) start).cl.auto = true := by decide

theorem test_cl_stat :
    let r := (answer .clStat {} start).getD {}
    r.ra = .rat 0 ∧ r.rb = .rat 0 ∧ near r.rc 245646574942 = true ∧ near r.rd 34739671783 = true ∧ r.rtrk = 0 ∧
      r.rflag = false := by decide +kernel

/-! ### The sync monitor (95_test_vectors.md 2.3) -/

theorem test_pm_reset :
    let s := after (exec .pmReset (monitorAt 2 .fine .fine)) start
    s.pm = { count := 0, level := .searching } ∧ s.cl.trk = .searching := by decide

theorem test_pm_det_counts :
    let s := after (run .pmDet { opn := 5 } (monitorAt 1 .coarse .coarse)) start
    s.pm = { count := 2, level := .fine } ∧ s.cl.trk = .fine := by decide

theorem test_pm_det_clamps :
    let s := after (exec .pmDet (monitorAt 3 .locked .coarse)) start
    s.pm = { count := 3, level := .locked } ∧ s.cl.trk = .coarse := by decide

theorem test_pm_lost_counts :
    let s := after (run .pmLost { opn := 288 } (monitorAt 3 .locked .locked)) start
    s.pm = { count := 1, level := .coarse } ∧ s.cl.trk = .coarse := by decide

theorem test_pm_lost_clamps :
    let s := after (run .pmLost { opn := 288 } (monitorAt 1 .coarse .coarse)) start
    s.pm = { count := 0, level := .searching } ∧ s.cl.trk = .searching := by decide

/-- SYNC_LEVEL[0] is SEARCHING in every instance (41_sync_monitor.md R92), that of State.reset too. -/
theorem test_pm_lost_from_reset :
    let s := after (exec .pmLost State.reset) start
    s.pm = { count := 0, level := .searching } ∧ s.cl.trk = .searching := by decide

theorem test_pm_ferr_gated :
    answer .pmFerr { opa := .finite (.rat (-25 / 2)) } (monitorAt 1 .coarse .coarse) = some {} := by decide +kernel

theorem test_pm_ferr_forwards :
    answer .pmFerr { opa := .finite (.rat (-25 / 2)) } (monitorAt 2 .fine .fine) =
      some { rflag := true, ra := .rat (-25 / 2) } := by decide +kernel

theorem test_pm_stat : answer .pmStat {} (monitorAt 2 .fine .locked) = some { rn := 2, rtrk := 2 } := by decide +kernel

/-! ### The Hilbert FIR (95_test_vectors.md 2.4) -/

/-- A delay line of zeros but for two samples. -/
def lineWith (i j : Nat) (x y : ℚ) : Vector RealTerm 47 :=
  ⟨((List.range 47).map fun n => RealTerm.rat (if n = i then x else if n = j then y else 0)).toArray, by simp⟩

theorem test_ht_reset :
    (after (exec .htReset { start with ht := { x := lineWith 27 26 1 (1 / 2), sign := true } }) start).ht =
      start.ht := by decide +kernel

/-- Output m = 11 of the impulse `1.0, 0.5`. -/
theorem test_ht_push_m11 :
    answer .htPush {} { start with ht := { x := lineWith 21 20 1 (1 / 2), sign := true } } =
      some { ra := .rat (-1), rb := .rat (3 / 10) } := by decide +kernel

/-- Output m = 12. -/
theorem test_ht_push_m12 :
    answer .htPush {} { start with ht := { x := lineWith 23 22 1 (1 / 2), sign := false } } =
      some { ra := .rat 0, rb := .rat (3 / 10) } := by decide +kernel

/-! ### Golay(24) and the slot type (95_test_vectors.md 2.5, 2.6) -/

theorem test_gl_dec_one_error : answer .glDec { w24 := 0x800000 } start = some { rw24 := 0, rfec := 1 } := by
  decide +kernel

theorem test_gl_dec_two_errors : answer .glDec { w24 := 0xC00000 } start = some { rw24 := 0xC00000, rfec := 2 } := by
  decide +kernel

theorem test_st_ext : answer .stExt { burst := onesAt 288 [122, 189] } start = some { rw24 := 0x080001 } := by
  decide +kernel

theorem test_st_ext_ignores_others :
    answer .stExt { burst := onesAt 288 [0, 121, 132, 179, 287] } start = some {} := by decide +kernel

theorem test_st_dec_one_error :
    answer .stDec { burst := onesAt 288 [122] } start = some { rfec := 1, rcorr := true, rvalid := true } := by
  decide +kernel

theorem test_st_dec_two_errors :
    answer .stDec { burst := onesAt 288 [122, 123] } start =
      some { rw24 := 0x0C0000, rfec := 2, rcc := 12, rdt := 16 } := by decide +kernel

/-! ### BPTC (95_test_vectors.md 2.7) -/

/-- The map of 45_bptc_196_96.md R145 at the places listed in 95_test_vectors.md. -/
theorem test_bptc_interleave :
    [0, 1, 2, 3, 4, 5, 6, 7, 8, 9, 10, 11, 13, 85, 98, 183].map
      (fun i => (ex.bptcInterleave.toList.getD i 0).val) =
    [0, 181, 166, 151, 136, 121, 106, 91, 76, 61, 46, 31, 1, 97, 98, 195] := by decide +kernel

theorem test_bp_ext : answer .bpExt { burst := onesAt 288 [24, 287] } start =
    some { rv196 := 0x8000000000000000000000000000000000000000000000001 } := by decide +kernel

theorem test_bp_deint : answer .bpDeint { v196 := 0x4000000000000000000000000000000000000000000000000 } start =
    some { rv196 := 0x0004000000000000000000000000000000000000000000000 } := by decide +kernel

theorem test_bp_dec_reserved_bit : answer .bpDec { burst := onesAt 288 [24] } start = some { rvalid := true } := by
  decide +kernel

theorem test_bp_dec_one_error :
    answer .bpDec { burst := onesAt 288 [228] } start = some { rcount := 1, rvalid := true } := by decide +kernel

/-! ### The trellis (46_trellis_3_4.md R167 to R172; 95_test_vectors.md 2.8) -/

/-- Entries of the table of R167: the first and last of each of its lines. -/
theorem test_trellis_interleave :
    [0, 1, 2, 25, 26, 49, 50, 73, 74, 97].map (fun k => (ex.trellisInterleave.toList.getD k 0).val) =
      [0, 1, 8, 97, 2, 91, 4, 93, 6, 95] := by decide +kernel

/-- The all-zero data encoded (R172): every point is pattern 0010. -/
theorem test_trellis_encode_zero :
    trellisEncode ex 0 = 0x2222222222222222222222222222222222222222222222222 := by decide +kernel

/-- Data with only bit 2 set (R172): points 8, 4, 0, ... -/
theorem test_trellis_points :
    sentPatterns ex 0 (dataTribits 0x200000000000000000000000000000000000) =
      0b1101#4 :: 0b1110#4 :: List.replicate 47 0b0010#4 := by decide +kernel

theorem test_trellis_received_points :
    receivedPoints ex 0xD222222222222E22222222222222222222222222222222222 =
      0b1101#4 :: 0b1110#4 :: List.replicate 47 0b0010#4 := by decide +kernel

theorem test_viterbi_data :
    viterbi ex (0b1101#4 :: 0b1110#4 :: List.replicate 47 0b0010#4) = (0x200000000000000000000000000000000000, 0) := by
  decide +kernel

/-- All received points 0000: tribit 3 throughout, metric 3. -/
theorem test_viterbi_zero :
    viterbi ex (List.replicate 49 0) = (0x6DB6DB6DB6DB6DB6DB6DB6DB6DB6DB6DB6DB, 3) := by decide +kernel

/-! ### The block (95_test_vectors.md 2.9) -/

theorem test_blk_reset :
    after (exec .blkReset { monitorAt 2 .fine .locked with err := { flag := true, cause := 1, cmd := 0x7000 } }) start =
      { start with resp := some {} } := by rfl

theorem test_blk_stat :
    answer .blkStat {} { start with err := { flag := true, cause := 1, cmd := 0x0702 } } =
      some { rflag := true, rcause := 1, rcmd := 0x0702 } := by decide +kernel

/-! ### The assembler (30_encoding.md R60, its examples) -/

theorem test_assemble_real :
    assemble "ht.push" [.text "1.0", .text "-12.5"] =
      some (.command .htPush { opa := .finite (.rat 1), opb := .finite (.rat (-25 / 2)) }) := by decide +kernel

theorem test_assemble_names :
    assemble "cl.settrk" [.text "FINE"] = some (.command (.clSettrk .fine) {}) ∧
    assemble "cl.setauto" [.text "2"] = none := by decide +kernel

theorem test_assemble_burst :
    assemble "st.dec" [.burstFlips [122]] = some (.command .stDec { burst := onesAt 288 [122] }) := by decide +kernel

theorem test_assemble_hex :
    assemble "gl.dec" [.text "80000C"] = some (.command .glDec { w24 := 0x80000C }) ∧
    assemble "gl.dec" [.text "800000C"] = none := by decide +kernel

/-- The example lines of R60, and a raw comment line. -/
theorem test_assemble_lines :
    assembleLine "cl.adj 0.5" 0 = some (some (.command .clAdj { opa := .finite (.rat (1 / 2)) })) ∧
    assembleLine "ht.push 1.0, 0.0 ; a pair" 0 =
      some (some (.command .htPush { opa := .finite (.rat 1), opb := .finite (.rat 0) })) ∧
    assembleLine "cl.settrk FINE" 0 = some (some (.command (.clSettrk .fine) {})) ∧
    assembleLine "  ; nothing" 0 = some none := by decide +kernel

theorem test_assemble_burst_lines :
    assembleLine "st.dec burst(zero flip 122)" 0 = some (some (.command .stDec { burst := onesAt 288 [122] })) ∧
    assembleLine "st.ext burst(zero flip 122, 189)" 0 =
      some (some (.command .stExt { burst := onesAt 288 [122, 189] })) ∧
    assembleLine "dmr.payload burst(zero)" 0 = some (some (.pseudo (.dmrPayload 0))) ∧
    assembleLine "ht.filter [1.0, 0.5]" 9 =
      some (some (.pseudo (.htFilter [.finite (.rat 1), .finite (.rat (1 / 2))] 9))) := by decide +kernel

theorem test_assemble_odd_filter : assembleFilter ["1.0", "0.5", "0"] 7 = none := by decide +kernel

/-! ### Witnesses: for each statement with hypotheses, a concrete case that meets them -/

/-- The valuation of the atoms used by the witnesses; EX has no atoms. -/
def rho : Nat → ℝ := fun _ => 0

theorem pi_near : 3.14 < Real.pi ∧ Real.pi < 3.15 := ⟨Real.pi_gt_d2, Real.pi_lt_d2⟩

theorem ex_ratesPositive : ex.RatesPositive rho := by constructor <;> simp [ex]

theorem ex_maxFreq : maxFreqReal rho ex = Real.pi / 10 := by simp only [maxFreqReal, ex, val_rat]; norm_num; ring

theorem ex_bandwidthsValid : ex.BandwidthsValid rho := by
  obtain ⟨h1, h2⟩ := pi_near
  simp only [Params.BandwidthsValid, ex, turnOver, RealTerm.val]
  norm_num
  exact ⟨by linarith, by linarith, by linarith, by linarith⟩

theorem ex_syncTableValid : ex.SyncTableValid := by constructor <;> decide

theorem ex_halfbandSymmetric : ex.HalfbandSymmetric rho := by
  have h : ∀ n ≤ 46, halfband ex n = halfband ex (46 - n) := by decide +kernel
  exact fun n hn => by rw [← h n hn]

/-- Every sum of rows of a generator matrix, with weight at least `d` counted from `w` and `acc`; sums of `d` rows or
more need no look at the parity. -/
def sumsHeavy (d : Nat) : List (BitVec 12) → Nat → BitVec 12 → Bool
  | [], w, acc => w == 0 || d ≤ w + wt acc
  | r :: rs, w, acc => d ≤ w || (sumsHeavy d rs w acc && sumsHeavy d rs (w + 1) (r ^^^ acc))

theorem sumsHeavy_sound (d : Nat) (rows : List (BitVec 12)) (w : Nat) (acc : BitVec 12) (h : sumsHeavy d rows w acc)
    (bs : List Bool) (hl : bs.length = rows.length) :
    w + bs.count true = 0 ∨ d ≤ w + bs.count true + wt (acc ^^^ gf2Mul rows bs) := by
  induction rows generalizing w acc bs with
  | nil =>
    obtain rfl : bs = [] := List.length_eq_zero_iff.mp (by simpa using hl)
    simpa [sumsHeavy, gf2Mul] using h
  | cons r rs ih =>
    match bs with
    | [] => simp at hl
    | b :: bs =>
      rw [sumsHeavy, Bool.or_eq_true, Bool.and_eq_true, decide_eq_true_eq] at h
      rcases h with h | ⟨h0, h1⟩
      · exact .inr (by omega)
      · have hl' : bs.length = rs.length := by simpa using hl
        cases b with
        | false => simpa [gf2Mul] using ih w acc h0 bs hl'
        | true =>
          have := ih (w + 1) (r ^^^ acc) h1 bs hl'
          simp only [gf2Mul, List.count_cons_self, if_pos]
          rw [show acc ^^^ (r ^^^ gf2Mul rs bs) = r ^^^ acc ^^^ gf2Mul rs bs by ac_rfl]
          omega

/-- The code of EX has minimum distance at least 4. -/
theorem ex_golayDistance (info : BitVec 12) (h : info ≠ 0) : 4 ≤ wt (golayEncode ex info) := by
  have hs : sumsHeavy 4 exGolay.toList 0 0 = true := by decide +kernel
  rcases sumsHeavy_sound 4 _ 0 0 hs (bitsOf info) (by simp) with h0 | h0
  · exact absurd (wt_eq_zero.mp (by simpa [wt] using h0)) h
  · rw [golayEncode, wt_append]
    simpa [wt, golayParity, ex] using h0

theorem ex_radiusInRange : ex.RadiusInRange := ⟨by decide, by decide⟩
theorem ex_passesPositive : ex.PassesPositive := by unfold Params.PassesPositive; decide
theorem ex_golayValid : ex.GolayValid := ⟨by decide, by decide, ex_golayDistance⟩
theorem ex_rowCodeValid : ex.RowCodeValid := by unfold Params.RowCodeValid; decide +kernel
theorem ex_colCodeValid : ex.ColCodeValid := by unfold Params.ColCodeValid; decide +kernel
theorem ex_bptcInterleaveValid : ex.BptcInterleaveValid := by unfold Params.BptcInterleaveValid; decide +kernel
theorem ex_slotIndexValid : ex.SlotIndexValid := by unfold Params.SlotIndexValid; decide +kernel
theorem ex_trellisTablesValid : ex.TrellisTablesValid := by unfold Params.TrellisTablesValid; decide +kernel
theorem ex_trellisStatesSeparate : ex.TrellisStatesSeparate := by unfold Params.TrellisStatesSeparate; decide +kernel

/-- EX meets every constraint of 00_scope.md R8. -/
theorem ex_constrained : ex.Constrained rho :=
  ⟨ex_ratesPositive, ex_bandwidthsValid, ex_syncTableValid, ex_halfbandSymmetric, ex_radiusInRange, ex_slotIndexValid,
    ex_bptcInterleaveValid, ex_rowCodeValid, ex_colCodeValid, ex_passesPositive, ex_trellisTablesValid,
    ex_trellisStatesSeparate⟩

/-! Encoding and the step. -/

theorem witness_StepRunsTheDecodedCommand :
    (start.withFetchWord 16 0x0100).pending = .command 0x0100 {} :: [] ∧ decode 0x0100 = some .clInc := ⟨rfl, by decide⟩

theorem witness_IllegalWordIsRejectedPrecisely :
    (start.withFetchWord 16 0x0604).pending = .command 0x0604 {} :: [] ∧ (0x0604 : CmdWord) ∉ legalWords := ⟨rfl, by decide⟩

theorem witness_IdleHoldsAndResetInputResets :
    start.pending = [] ∧ ({ start with pending := [.resetInput] } : State).pending = .resetInput :: [] := by decide

theorem witness_CommandsCompleteExactlyOnFiniteOperands :
    Instr.wellFormed .htPush start.ports = true ∧ Instr.wellFormed .htPush { opb := .posInf } = false := by decide

/-! Reset and the invariants. -/

theorem witness_ResetMeetsTheRegisterInvariant : ex.RatesPositive rho ∧ ex.SyncTableValid :=
  ⟨ex_ratesPositive, ex_syncTableValid⟩

/-- A state at the upper bounds: the greatest count, the frequency MAX_FREQ, an illegal word recorded. -/
def busy : State := { setTracking .locked start with
  cl := { (setTracking .locked start).cl with phase := .rat 6, freq := maxFreq ex }
  pm := { count := 3, level := .locked }
  err := { flag := true, cause := 1, cmd := 0xFFFF }
  pending := [.command 0x0100 {}] }

theorem busy_inv : Inv rho busy where
  phase := by
    obtain ⟨h1, h2⟩ := pi_near
    constructor <;> simp only [busy, val_rat] <;> push_cast <;> linarith
  freq := by
    obtain ⟨h1, h2⟩ := pi_near
    have hp : maxFreqReal rho busy.params = Real.pi / 10 := ex_maxFreq
    have hf : busy.cl.freq.val rho = Real.pi / 10 := by rw [← ex_maxFreq]; exact val_maxFreq rho ex
    rw [FreqInRange, hp, hf]; exact ⟨by linarith, le_refl _⟩
  gains := ⟨val_alphaOf rho (loopBw ex .locked), val_betaOf rho (loopBw ex .locked)⟩
  count := by unfold CountInRange; decide
  level := by rfl
  err := .inr (by decide)

theorem witness_EveryStepKeepsTheRegisterInvariant :
    busy.params.RatesPositive rho ∧ busy.params.SyncTableValid ∧ Inv rho busy ∧ ∃ t, step busy = .next t :=
  ⟨ex_ratesPositive, ex_syncTableValid, busy_inv, _, rfl⟩

/-- Each register changes under one of its writers. -/
theorem witness_RegistersChangeOnlyByTheirWriters :
    (after (exec .clInc (loopAt 1 1)) start).cl.phase ≠ (loopAt 1 1).cl.phase ∧
    (after (run .clCorr { opa := .finite (.rat 1) } start) start).cl.freq ≠ start.cl.freq ∧
    (after (exec (.clSettrk .coarse) start) start).cl.trk ≠ start.cl.trk ∧
    (after (exec (.clSetauto true) start) start).cl.auto ≠ start.cl.auto ∧
    (after (exec .pmDet start) start).pm ≠ start.pm ∧ (after (exec .htPush start) start).ht ≠ start.ht ∧
    (after (exec .blkReset busy) start).err ≠ busy.err := by decide +kernel

/-- A state with no register at its reset value, but CL.AUTO; the operands are not 0. -/
def worked : State := { busy with
  cl := { busy.cl with phase := .rat 1, freq := .rat (1 / 10), trk := .fine }
  pm := { count := 2, level := .fine }
  ht := { x := Vector.replicate 47 (.rat 1), sign := true }
  ports := { opa := .finite (.rat (1 / 2)), opb := .finite (.rat 2) } }

/-- What two states hold in their registers differs, phase and frequency read as numbers. -/
def registersDiffer (s t : State) : Bool :=
  approx s.cl.phase != approx t.cl.phase || approx s.cl.freq != approx t.cl.freq ||
    s.cl.trk != t.cl.trk || s.cl.auto != t.cl.auto || s.pm != t.pm || s.ht != t.ht || s.err != t.err

/-- 20_memory.md R45: the commands outside the list of decoders and status reads change state. All but PM.FERR, of
which 41_sync_monitor.md R100 says that it changes no register (log 17). -/
theorem test_commands_outside_the_list_change_registers :
    [Instr.clReset, .clInc, .clAdj, .clIncvec, .clCorr, .clSettrk .coarse, .clSetauto true, .pmReset, .pmDet, .pmLost,
      .htReset, .htPush, .blkReset].all (fun i => registersDiffer (after (exec i worked) worked) worked) = true := by
  decide +kernel

/-- Those of them that no rule calls idempotent and that rewrite no value of their own operand change state again when
they are repeated (20_memory.md R45). -/
theorem test_repeated_commands_change_registers_again :
    [Instr.clInc, .clAdj, .clIncvec, .clCorr, .pmDet, .pmLost, .htPush].all (fun i =>
      let once := after (exec i { worked with pm := { count := if i = .pmLost then 3 else 1, level := .coarse } }) worked
      registersDiffer (after (exec i once) once) once) = true := by
  decide +kernel

theorem witness_DecoderUnitsHoldNoState : start.params = ex ∧ start.ports = {} := ⟨rfl, rfl⟩

/-! The Costas loop. -/

theorem witness_GainsFollowTheFormulas : 0 < (RealTerm.rat (1 / 10)).val rho := by simp

theorem witness_NormalizePhaseFollowsTheLoops :
    2 * Real.pi ≤ 2 * Real.pi ∧ -(2 * Real.pi) ≤ -(2 * Real.pi) ∧ -(2 * Real.pi) < 0 ∧ 0 < 2 * Real.pi := by
  have := Real.pi_pos
  exact ⟨le_refl _, le_refl _, by linarith, by linarith⟩

theorem witness_FrequencyClampTakesTheNearerBound :
    (0 : ℝ) ≤ 1 ∧ (-1 : ℝ) ≤ 1 ∧ (1 : ℝ) ≤ 1 ∧ (1 : ℝ) < 2 ∧ (-2 : ℝ) < -1 := by norm_num

theorem witness_ClAdjAppliesThePhaseError :
    start.ports.opa = .finite (.rat 0) ∧ start.cl.auto = false ∧
      ({ start with cl := { start.cl with auto := true } } : State).cl.auto = true := ⟨rfl, rfl, rfl⟩

/-- Sums at the upper bound, above it and below the lower bound. -/
theorem witness_ClCorrWrapsTheFrequency :
    start.params.RatesPositive rho ∧
    start.cl.freq.val rho + (maxFreq ex).val rho ≤ maxFreqReal rho start.params ∧
    -maxFreqReal rho start.params ≤ start.cl.freq.val rho + (maxFreq ex).val rho ∧
    maxFreqReal rho start.params < start.cl.freq.val rho + (RealTerm.rat 1).val rho ∧
    start.cl.freq.val rho + (RealTerm.rat (-1)).val rho < -maxFreqReal rho start.params := by
  obtain ⟨h1, h2⟩ := pi_near
  have hp : start.params = ex := rfl
  have hf : start.cl.freq.val rho = 0 := by simp [start, State.initial]
  rw [hp, hf, val_maxFreq, ex_maxFreq, val_rat, val_rat]
  push_cast
  exact ⟨ex_ratesPositive, by linarith, by linarith, by linarith, by linarith⟩

theorem witness_FreeRunningPhaseIsLinear : PhaseInRange rho (loopAt (62 / 10) (3 / 10)) := by
  obtain ⟨h1, h2⟩ := pi_near
  constructor <;> simp only [loopAt, val_rat] <;> push_cast <;> linarith

theorem witness_DespinFollowsTheCarrier : ∃ t pairs, clDespin 1 start = .next (t, pairs) ∧ 0 < pairs.length :=
  ⟨_, _, rfl, by decide⟩

/-! The sync monitor. -/

/-- A detection that changes the level, and one at the greatest count that does not. -/
theorem witness_PmDetCountsUpAndAppliesTheLevel :
    start.params.SyncTableValid ∧
    (after (exec .pmDet start) start).pm.level ≠ start.pm.level ∧
    (after (exec .pmDet busy) start).pm.level = busy.pm.level := ⟨ex_syncTableValid, by decide, by decide⟩

/-- A loss that changes the level, and one at count 0 that does not. -/
theorem witness_PmLostCountsDownAndAppliesTheLevel :
    start.params.SyncTableValid ∧
    (after (exec .pmLost busy) start).pm.level ≠ busy.pm.level ∧
    (after (exec .pmLost start) start).pm.level = start.pm.level := ⟨ex_syncTableValid, by decide, by decide⟩

theorem witness_PmFerrGatesByTheThreshold : start.ports.opa = .finite (.rat 0) := rfl

/-- After CL.SETTRK FINE: a detection that maps to the monitor's own level, and one that maps to another. -/
theorem witness_AmongSyncEventsDirectTrackingYieldsOnlyToALevelChange :
    (after (exec .pmDet (after (exec (.clSettrk .fine) busy) start)) start).pm.level = busy.pm.level ∧
    (after (exec .pmDet (after (exec (.clSettrk .fine) start) start)) start).pm.level ≠ start.pm.level := by decide

/-! The Hilbert FIR. -/

theorem witness_HtPushFiltersOnePair :
    start.ports.opa = .finite (.rat 0) ∧ start.ports.opb = .finite (.rat 0) ∧ 2 ≤ 46 ∧ 46 ≤ 46 := by decide +kernel

theorem witness_QuadratureCoefficientsFromThePrototype :
    ex.HalfbandSymmetric rho ∧ 11 ≤ 11 ∧ 12 ≤ 12 ∧ 23 ≤ 23 := ⟨ex_halfbandSymmetric, by decide⟩

/-- Two samples: one output. -/
theorem witness_FilterOutputsHaveTheClosedForm :
    ∃ s0 t outs, exec .htReset start = .next s0 ∧
      pushSamples ([RealTerm.rat 1, .rat (1 / 2)].map .finite) s0 = .next (t, outs) ∧ 0 < outs.length :=
  ⟨_, _, _, rfl, rfl, by decide⟩

theorem witness_FilterBlocksMaySplitAnywhereEven :
    [RealTerm.rat 1, .rat 2].length % 2 = 0 ∧ [RealPort.nan].length % 2 = 1 := by decide

/-! Golay(24) and the slot type. -/

/-- A codeword; a word one error from a codeword; a word two errors from one, out of the radius. -/
theorem witness_GlDecChecksAndCorrects :
    golaySyndrome ex 0 = 0 ∧
    (golaySyndrome ex 0x800000 ≠ 0 ∧ wt (0x800000 : Word24) = 1 ∧ 1 ≤ ex.golayRadius) ∧
    (golayDecode ex 0xC00000).2 = fecUncorrectable := by decide +kernel

/-- Errors of weight 0, of the radius, and of the greatest weight that distance 4 detects. -/
theorem witness_GolayCorrectsUpToItsRadius :
    ex.GolayValid ∧ (∀ info : BitVec 12, info ≠ 0 → 4 ≤ wt (golayEncode ex info)) ∧
    wt (0 : Word24) = 0 ∧ wt (1 : Word24) = ex.golayRadius ∧
    ex.golayRadius < wt (3 : Word24) ∧ wt (3 : Word24) + 1 + ex.golayRadius = 4 :=
  ⟨ex_golayValid, ex_golayDistance, by decide +kernel⟩

theorem witness_StExtGathersTheSlotBits : SameSlotBits ex 0 (onesAt 288 [0, 121, 132, 179, 190, 287]) := by
  unfold SameSlotBits
  decide +kernel

/-- Bursts one and two slot-bit errors from the all-zero codeword. -/
theorem witness_SlotTypeErrorsAreCorrectedOrFlagged :
    ex.GolayValid ∧ ex.golayRadius = 1 ∧ (∀ j : BitVec 12, j ≠ 0 → 4 ≤ wt (golayEncode ex j)) ∧
    slotBuffer ex 0 = golayEncode ex 0 ∧
    wt (slotBuffer ex 0 ^^^ slotBuffer ex (onesAt 288 [122])) = 1 ∧
    wt (slotBuffer ex 0 ^^^ slotBuffer ex (onesAt 288 [122, 189])) = 2 :=
  ⟨ex_golayValid, by decide, ex_golayDistance, by decide +kernel⟩

/-! BPTC(196,96). -/

theorem witness_BpDeintPermutesTheBlock : start.params.BptcInterleaveValid := ex_bptcInterleaveValid

/-- Lines with syndrome 0, with the syndrome of their first and of their last bit, and, for a column, of no bit. -/
theorem witness_LineRepairFlipsTheNamedPosition :
    ex.RowCodeValid ∧ ex.ColCodeValid ∧
    syndrome15 ex (rowOf 0 0) = 0 ∧ syndrome13 ex (colOf 0 14) = 0 ∧
    syndrome15 ex (rowOf (flipBit 0 (cell 12 14)) 12) = syndrome15 ex (unitBit 15 14) ∧
    syndrome13 ex (colOf (flipBit 0 (cell 0 0)) 0) = syndrome13 ex (unitBit 13 0) ∧
    ∀ i < 13, syndrome13 ex (colOf (onesAt 196 [cell 0 2, cell 8 2]) 2) ≠ syndrome13 ex (unitBit 13 i) :=
  ⟨ex_rowCodeValid, ex_colCodeValid, by decide +kernel⟩

/-- A valid decode, and one that a single pass leaves invalid. -/
theorem witness_BpDecReturnsPayloadAndCount :
    (bptcResponse ex 0).rvalid = true ∧
    (bptcResponse { ex with bptcMaxPasses := 0 } (onesAt 288 [25])).rvalid = false := by decide +kernel

theorem witness_BptcRoundTripReturnsThePayload :
    ex.BptcInterleaveValid ∧
    ({ start with ports := { burst := burstOf (bptcEncode ex 5) 0 } } : State).ports.burst =
      burstOf (bptcEncode ex 5) 0 := ⟨ex_bptcInterleaveValid, rfl⟩

theorem witness_BptcRepairsOneError :
    ex.RowCodeValid ∧ 1 ≤ ex.bptcMaxPasses ∧ 1 ≤ 195 ∧ 195 < 196 := ⟨ex_rowCodeValid, by decide⟩

theorem witness_BptcRepairsTwoErrors :
    ex.RowCodeValid ∧ ex.ColCodeValid ∧ 1 ≤ ex.bptcMaxPasses ∧ 1 ≤ 1 ∧ 1 < 195 ∧ 195 < 196 :=
  ⟨ex_rowCodeValid, ex_colCodeValid, by decide⟩

theorem witness_PayloadCommandsIgnoreOtherBurstBits :
    SamePayloadBits 0 (onesAt 288 [0, 23, 122, 189]) := by
  have h : ∀ k < 288, (24 ≤ k ∧ k ≤ 121 ∨ 190 ≤ k ∧ k ≤ 287) →
      bit (0 : Burst) k = bit (onesAt 288 [0, 23, 122, 189]) k := by decide +kernel
  exact fun k hk => h k (by omega) hk

/-! The trellis decoder. -/

theorem ex_zero_burst_metric : (viterbi ex (receivedPoints ex (bptcExtract 0))).2 = 3 := by
  have h1 : bptcExtract 0 = 0 := by decide +kernel
  have h2 : receivedPoints ex 0 = List.replicate 49 0 := by decide +kernel
  rw [h1, h2, test_viterbi_zero]

/-- The zero burst's metric is 3 (95_test_vectors.md 2.8): within the bound 4 of EX, above the bound 2. -/
theorem witness_TrDecReportsPayloadAndMetric :
    metricPasses ex (viterbi ex (receivedPoints ex (bptcExtract 0))).2 = true ∧
    metricPasses { ex with viterbiFailMetric := some 2 } (viterbi ex (receivedPoints ex (bptcExtract 0))).2 = false := by
  rw [ex_zero_burst_metric]
  decide

theorem witness_ReceivedPointsFollowTheInterleave : ex.trellisInterleave.toList.Nodup := ex_trellisTablesValid.1

theorem witness_ViterbiReturnsTheNearestPayload : (List.replicate 49 (0 : BitVec 4)).length = 49 := by decide

theorem witness_TrellisRoundTripReturnsTheData :
    ex.TrellisTablesValid ∧ ex.TrellisStatesSeparate ∧
    ({ start with ports := { burst := burstOf (trellisEncode ex 5) 0 } } : State).ports.burst =
      burstOf (trellisEncode ex 5) 0 := ⟨ex_trellisTablesValid, ex_trellisStatesSeparate, rfl⟩

/-! The block and the host's dispatch. -/

theorem witness_BlkResetResetsEveryUnit :
    [Instr.htReset, .clReset, .pmReset].Perm [.clReset, .pmReset, .htReset] := by decide

/-- The burst whose slot buffer is the last 20 bits of `w`. -/
def slotBurst (w : Word24) : Burst :=
  ofBits 288 fun k => if 122 ≤ k ∧ k < 132 then bit w (k - 118) else if 180 ≤ k ∧ k < 190 then bit w (k - 166) else false

/-- The four branches: data type 8, data type 10, another data type, and an invalid slot type. -/
theorem witness_DmrPayloadDispatchesAfterValidity :
    (answer .stDec { burst := slotBurst (golayEncode ex 0x078) } start).map (fun r => (r.rvalid, r.rdt)) =
      some (true, 8) ∧
    (answer .stDec { burst := slotBurst (golayEncode ex 0x07A) } start).map (fun r => (r.rvalid, r.rdt)) =
      some (true, 10) ∧
    (answer .stDec { burst := 0 } start).map (fun r => (r.rvalid, r.rdt)) = some (true, 0) ∧
    (answer .stDec { burst := onesAt 288 [122, 123] } start).map (·.rvalid) = some false := by decide +kernel

end Sys2Proof.Tests
end

section
/-!
The state after reset (10_state.md R36), for any parameters and for those of `State.reset`.
-/

namespace Sys2Proof.Machine

/-- The count 0 maps to SEARCHING (41_sync_monitor.md R92). -/
theorem levelOf_zero {p : Params} (h : p.SyncTableValid) : levelOf p 0 = .searching := by
  obtain ⟨-, hhead⟩ := h
  simp [levelOf, List.getD_eq_getElem?_getD, ← List.head?_eq_getElem?, hhead]

/-- The register invariant holds after reset (10_state.md R20 to R26, R34). -/
theorem initial_inv {ρ : Nat → ℝ} {p : Params} (hrates : p.RatesPositive ρ) (htable : p.SyncTableValid) :
    Inv ρ (State.initial p) where
  phase := by simp [PhaseInRange, State.initial, Real.pi_pos]
  freq := by simp [FreqInRange, State.initial, (maxFreqReal_pos hrates).le]
  gains := ⟨val_alphaOf ρ _, val_betaOf ρ _⟩
  count := Nat.zero_le _
  level := (levelOf_zero htable).symm
  err := .inl rfl

/-- The parameters of `State.reset` meet every constraint of 00_scope.md R8, whatever the opaque constants are. -/
theorem boot_constrained (ρ : Nat → ℝ) : bootParams.Constrained ρ where
  rates := boot_ratesPositive ρ
  bandwidths := boot_bandwidthsValid ρ
  syncTable := boot_syncTableValid
  halfband := boot_halfbandSymmetric ρ
  radius := boot_radiusInRange
  slotIndex := boot_slotIndexValid
  bptcInterleave := boot_bptcInterleaveValid
  rowCode := boot_rowCodeValid
  colCode := boot_colCodeValid
  passes := boot_passesPositive
  trellisTables := boot_trellisTablesValid
  trellisStates := boot_trellisStatesSeparate

/-- Settles O8: the gains are those of LOOP_BW[SEARCHING], and the cleared delay line reads 0 at every tap. -/
theorem resetLeavesTheStatedValues : Obligations.ResetLeavesTheStatedValues := by
  refine ⟨rfl, fun ρ p => ?_⟩
  have hzero : (RealTerm.rat 0).val ρ = 0 := by simp
  have htaps : ∀ j ≤ 46, ((State.initial p).ht.tap j).val ρ = 0 := fun j _ => by simp [State.initial]
  exact ⟨State.initial p, rfl, rfl, hzero, hzero, rfl, val_alphaOf ρ _, val_betaOf ρ _, rfl, rfl, rfl, htaps,
    rfl, rfl, rfl, rfl⟩

/-- Settles O9: the invariant at reset, and the boot parameters are among those it holds for. -/
theorem resetMeetsTheRegisterInvariant : Obligations.ResetMeetsTheRegisterInvariant :=
  ⟨fun _ _ => initial_inv, fun ρ => ⟨boot_constrained ρ, initial_inv (boot_ratesPositive ρ) boot_syncTableValid⟩⟩

end Sys2Proof.Machine
end

section
/-!
The decoder units GL, ST, BP and TR (10_state.md R31): the response of each command as a function of the parameters and
the operand ports.
-/

namespace Sys2Proof.Machine

/-- The commands of the decoder units (10_state.md R31). -/
def decoderCommands : List Instr := [.glDec, .stExt, .stDec, .bpExt, .bpDeint, .bpDec, .trDec]

/-- The response of a decoder command; of any other command it says nothing. -/
def decoderResponse (p : Params) (ports : Ports) : Instr → Response
  | .glDec =>
    let d := golayDecode p ports.w24
    { rw24 := d.1, rfec := d.2 }
  | .stExt => { rw24 := slotBuffer p ports.burst }
  | .stDec =>
    let d := golayDecode p (slotBuffer p ports.burst)
    slotResponse d.1 d.2
  | .bpExt => { rv196 := bptcExtract ports.burst }
  | .bpDeint => { rv196 := deinterleave p ports.v196 }
  | .bpDec => bptcResponse p ports.burst
  | .trDec => trellisResponse p ports.burst
  | _ => {}

/-- A decoder command only answers: no register is read or written. -/
theorem exec_decoder {i : Instr} (hi : i ∈ decoderCommands) (s : State) :
    exec i s = .next (s.respond (decoderResponse s.params s.ports i)) := by
  simp only [decoderCommands, List.mem_cons, List.not_mem_nil, or_false] at hi
  rcases hi with rfl | rfl | rfl | rfl | rfl | rfl | rfl <;> rfl

/-- Settles O13: the response is `decoderResponse` of the given parameters and ports. -/
theorem decoderUnitsHoldNoState : Obligations.DecoderUnitsHoldNoState := by
  intro i hi p ports
  refine ⟨decoderResponse p ports i, ?_⟩
  rintro s rfl rfl
  exact exec_decoder hi s

end Sys2Proof.Machine
end

section
/-!
The "written by" column of 10_state.md R36: what each shared operation leaves unchanged, what each command can do to the
registers, and from the two that no other command writes a register.
-/

namespace Sys2Proof.Machine

/-! ### What the shared operations leave unchanged -/

section resets
variable (s : State)
@[simp] theorem loopReset_params : (loopReset s).params = s.params := rfl
@[simp] theorem loopReset_pm : (loopReset s).pm = s.pm := rfl
@[simp] theorem loopReset_ht : (loopReset s).ht = s.ht := rfl
@[simp] theorem loopReset_err : (loopReset s).err = s.err := rfl
@[simp] theorem monitorReset_params : (monitorReset s).params = s.params := rfl
@[simp] theorem monitorReset_phase : (monitorReset s).cl.phase = s.cl.phase := rfl
@[simp] theorem monitorReset_freq : (monitorReset s).cl.freq = s.cl.freq := rfl
@[simp] theorem monitorReset_auto : (monitorReset s).cl.auto = s.cl.auto := rfl
@[simp] theorem monitorReset_ht : (monitorReset s).ht = s.ht := rfl
@[simp] theorem monitorReset_err : (monitorReset s).err = s.err := rfl
@[simp] theorem hilbertReset_params : (hilbertReset s).params = s.params := rfl
@[simp] theorem hilbertReset_cl : (hilbertReset s).cl = s.cl := rfl
@[simp] theorem hilbertReset_pm : (hilbertReset s).pm = s.pm := rfl
@[simp] theorem hilbertReset_err : (hilbertReset s).err = s.err := rfl
@[simp] theorem blockReset_params : (blockReset s).params = s.params := rfl
end resets

section correctFreq
variable (c : RealTerm) (s : State)
@[simp] theorem correctFreq_params : (correctFreq c s).params = s.params := rfl
@[simp] theorem correctFreq_phase : (correctFreq c s).cl.phase = s.cl.phase := rfl
@[simp] theorem correctFreq_trk : (correctFreq c s).cl.trk = s.cl.trk := rfl
@[simp] theorem correctFreq_alpha : (correctFreq c s).cl.alpha = s.cl.alpha := rfl
@[simp] theorem correctFreq_beta : (correctFreq c s).cl.beta = s.cl.beta := rfl
@[simp] theorem correctFreq_auto : (correctFreq c s).cl.auto = s.cl.auto := rfl
@[simp] theorem correctFreq_pm : (correctFreq c s).pm = s.pm := rfl
@[simp] theorem correctFreq_ht : (correctFreq c s).ht = s.ht := rfl
@[simp] theorem correctFreq_err : (correctFreq c s).err = s.err := rfl
end correctFreq

/-- The automatic path writes the tracking state and its gains alone (40_costas_loop.md R83). -/
@[simp] theorem autoTrack_frame (s : State) :
    (autoTrack s).params = s.params ∧ (autoTrack s).cl.phase = s.cl.phase ∧ (autoTrack s).cl.freq = s.cl.freq ∧
    (autoTrack s).cl.auto = s.cl.auto ∧ (autoTrack s).pm = s.pm ∧ (autoTrack s).ht = s.ht ∧
    (autoTrack s).err = s.err := by
  rcases autoTrack_cases s with ⟨-, e⟩ | ⟨-, e⟩ <;> simp [e]

/-- With CL.AUTO = 0 there is no automatic path (40_costas_loop.md R83). -/
theorem autoTrack_of_manual {s : State} (h : s.cl.auto = false) : autoTrack s = s := by
  simp [autoTrack, h]

/-- A new level moves the tracking state and its gains, and nothing else of the loop (41_sync_monitor.md R96). -/
@[simp] theorem applyLevel_frame (l : TrackingState) (s : State) :
    (applyLevel l s).cl.phase = s.cl.phase ∧ (applyLevel l s).cl.freq = s.cl.freq ∧
    (applyLevel l s).cl.auto = s.cl.auto ∧ (applyLevel l s).ht = s.ht ∧ (applyLevel l s).err = s.err := by
  rcases applyLevel_cases l s with ⟨-, e⟩ | ⟨-, e⟩ <;> simp [e]

/-- A sync event writes the monitor, the tracking state and its gains alone (41_sync_monitor.md R98, R99). -/
@[simp] theorem countEvent_frame (d : Int) (s : State) :
    (countEvent d s).params = s.params ∧ (countEvent d s).cl.phase = s.cl.phase ∧
    (countEvent d s).cl.freq = s.cl.freq ∧ (countEvent d s).cl.auto = s.cl.auto ∧
    (countEvent d s).ht = s.ht ∧ (countEvent d s).err = s.err := by
  simp [countEvent]

/-! ### What a command can do to the registers -/

/-- The commands that only answer: the reads, PM.FERR and the decoder units (10_state.md R31, R36). -/
def answeringCommands : List Instr := [.clVec, .clStat, .pmFerr, .pmStat, .blkStat] ++ decoderCommands

/-- `RegisterEffect s i u`: run from `s`, command `i` can leave `u`, its response set aside. -/
inductive RegisterEffect (s : State) : Instr → State → Prop
  | answers {i : Instr} (hi : i ∈ answeringCommands) : RegisterEffect s i s
  | clReset : RegisterEffect s .clReset (loopReset s)
  | clInc : RegisterEffect s .clInc (advancePhase s)
  | clAdj (e : RealTerm) : RegisterEffect s .clAdj (autoTrack (adjustLoop e s))
  | clIncvec : RegisterEffect s .clIncvec (advancePhase s)
  | clCorr (c : RealTerm) : RegisterEffect s .clCorr (correctFreq c s)
  | clSettrk (x : TrackingState) : RegisterEffect s (.clSettrk x) (setTracking x s)
  | clSetauto (e : Bool) : RegisterEffect s (.clSetauto e) { s with cl := { s.cl with auto := e } }
  | pmReset : RegisterEffect s .pmReset (monitorReset s)
  | pmDet : RegisterEffect s .pmDet (countEvent 1 s)
  | pmLost : RegisterEffect s .pmLost (countEvent (-2) s)
  | htReset : RegisterEffect s .htReset (hilbertReset s)
  | htPush (a b : RealTerm) : RegisterEffect s .htPush { s with ht := pushPair a b s.ht }
  | blkReset : RegisterEffect s .blkReset (blockReset s)

/-- Reading the next state off a run known to end in `u` with a response. -/
theorem RegisterEffect.responds {i : Instr} {s t u : State} {r : Response} (hu : RegisterEffect s i u)
    (h : (.next (u.respond r) : Result) = .next t) : ∃ u r, RegisterEffect s i u ∧ t = u.respond r :=
  ⟨u, r, hu, (Host.Outcome.next.inj h).symm⟩

/-- A command that goes on has its effect on the registers, then responds. -/
theorem exec_registerEffect {i : Instr} {s t : State} (h : exec i s = .next t) :
    ∃ u r, RegisterEffect s i u ∧ t = u.respond r := by
  cases i with
  | clReset => exact RegisterEffect.clReset.responds h
  | clInc => exact RegisterEffect.clInc.responds h
  | clAdj =>
    obtain ⟨e, -, h⟩ := withReal_next h
    exact (RegisterEffect.clAdj e).responds h
  | clIncvec => exact RegisterEffect.clIncvec.responds h
  | clCorr =>
    obtain ⟨c, -, h⟩ := withReal_next h
    exact (RegisterEffect.clCorr c).responds h
  | clSettrk x => exact (RegisterEffect.clSettrk x).responds h
  | clSetauto e => exact (RegisterEffect.clSetauto e).responds h
  | pmReset => exact RegisterEffect.pmReset.responds h
  | pmDet => exact RegisterEffect.pmDet.responds h
  | pmLost => exact RegisterEffect.pmLost.responds h
  | pmFerr =>
    obtain ⟨m, -, h⟩ := withReal_next h
    exact (RegisterEffect.answers (by decide)).responds h
  | htReset => exact RegisterEffect.htReset.responds h
  | htPush =>
    obtain ⟨a, -, h⟩ := withReal_next h
    obtain ⟨b, -, h⟩ := withReal_next h
    exact (RegisterEffect.htPush a b).responds h
  | blkReset => exact RegisterEffect.blkReset.responds h
  | clVec | clStat | pmStat | blkStat | glDec | stExt | stDec | bpExt | bpDeint | bpDec | trDec =>
    exact (RegisterEffect.answers (by decide)).responds h

/-! ### The writers of each register -/

/-- Settles O11, by the effects of the commands and the frames of the operations they use. -/
theorem registersChangeOnlyByTheirWriters : Obligations.RegistersChangeOnlyByTheirWriters := by
  intro i s t h
  obtain ⟨u, r, heffect, rfl⟩ := exec_registerEffect h
  simp only [respond_params, respond_cl, respond_pm, respond_ht, respond_err]
  cases heffect with
  | answers => simp
  | clReset | clInc | clIncvec => simp
  | clCorr | clSettrk | clSetauto => simp
  | pmReset | pmDet | pmLost => simp
  | htReset | htPush => simp
  | blkReset => simp
  | clAdj e =>
    cases hauto : s.cl.auto with
    | false => simp [autoTrack_of_manual, hauto]
    | true => simp [hauto]

end Sys2Proof.Machine
end

section
/-!
The idempotent commands (20_memory.md R45): a command that only answers, from what a response does not change, repeats.
-/

namespace Sys2Proof.Machine

@[simp] theorem respond_respond (r q : Response) (s : State) : (s.respond r).respond q = s.respond q := rfl

/-- The status reads (20_memory.md R45). -/
def statusReads : List Instr := [.clVec, .clStat, .pmStat, .blkStat]

/-- The response of a status read; of any other command it says nothing. -/
def statusResponse (s : State) : Instr → Response
  | .clVec => vectorResponse s
  | .clStat =>
    { ra := s.cl.phase
      rb := s.cl.freq
      rc := s.cl.alpha
      rd := s.cl.beta
      rtrk := s.cl.trk.code
      rflag := s.cl.auto }
  | .pmStat => { rn := s.pm.count, rtrk := s.pm.level.code }
  | .blkStat => { rflag := s.err.flag, rcause := s.err.cause, rcmd := s.err.cmd }
  | _ => {}

/-- A status read only answers: no register is written. -/
theorem exec_statusRead {i : Instr} (hi : i ∈ statusReads) (s : State) :
    exec i s = .next (s.respond (statusResponse s i)) := by
  simp only [statusReads, List.mem_cons, List.not_mem_nil, or_false] at hi
  rcases hi with rfl | rfl | rfl | rfl <;> rfl

/-- A status read does not see the response held before it. -/
@[simp] theorem statusResponse_respond (r : Response) (s : State) (i : Instr) :
    statusResponse (s.respond r) i = statusResponse s i := rfl

/-- A command that only answers, with a response that does not depend on the one held before, repeats from its next
state. -/
theorem exec_repeats {i : Instr} {answer : State → Response} (hexec : ∀ s, exec i s = .next (s.respond (answer s)))
    (hanswer : ∀ r s, answer (s.respond r) = answer s) (s : State) : ∃ t, exec i s = .next t ∧ exec i t = .next t :=
  ⟨s.respond (answer s), hexec s, by rw [hexec, hanswer, respond_respond]⟩

/-- Settles O12: the list of R45 is the decoder commands, whose responses read the parameters and the ports, and the
status reads, whose responses read the registers. -/
theorem readsAndDecodesAreIdempotent : Obligations.ReadsAndDecodesAreIdempotent := by
  intro i hi s
  have hkind : i ∈ decoderCommands ∨ i ∈ statusReads := List.mem_append.1 hi
  rcases hkind with hdecoder | hread
  · exact exec_repeats (exec_decoder hdecoder) (fun _ _ => rfl) s
  · exact exec_repeats (exec_statusRead hread) (fun r s => statusResponse_respond r s i) s

end Sys2Proof.Machine
end

section
/-!
The opcode map (30_encoding.md R54, R57): a word selects at most one row, and differs from the row's pattern in its low
two bits alone, so encoding undoes decoding word by word.
-/

namespace Sys2Proof.Machine

/-! ### A word selects at most one row -/

/-- Two rows of the map differ in a bit that both masks compare. -/
theorem opcodeMap_pairwise :
    opcodeMap.Pairwise fun r q => r.pattern &&& q.mask ≠ q.pattern &&& r.mask := by decide

/-- Two rows that one word selects agree on the bits that both masks compare. -/
theorem pattern_and_mask_comm {w : CmdWord} {r q : Row} (hr : w &&& r.mask = r.pattern)
    (hq : w &&& q.mask = q.pattern) : r.pattern &&& q.mask = q.pattern &&& r.mask := by
  rw [← hr, ← hq]
  ac_rfl

/-- R57: a word selects no row or exactly one. -/
theorem filter_selects_cases (w : CmdWord) :
    opcodeMap.filter (·.selects w) = [] ∨ ∃ r, opcodeMap.filter (·.selects w) = [r] := by
  have hdiffer := opcodeMap_pairwise.filter (·.selects w)
  have hselects : ∀ r ∈ opcodeMap.filter (·.selects w), w &&& r.mask = r.pattern := fun r hr =>
    of_decide_eq_true (List.mem_filter.1 hr).2
  match hrows : opcodeMap.filter (·.selects w) with
  | [] => exact .inl hrows
  | [r] => exact .inr ⟨r, hrows⟩
  | r :: q :: rows =>
    rw [hrows] at hdiffer hselects
    exact absurd (pattern_and_mask_comm (hselects r (by simp)) (hselects q (by simp)))
      (List.rel_of_pairwise_cons hdiffer List.mem_cons_self)

theorem length_filter_selects_le_one (w : CmdWord) : (opcodeMap.filter (·.selects w)).length ≤ 1 := by
  obtain hrows | ⟨r, hrows⟩ := filter_selects_cases w <;> simp [hrows]

/-- R57: decoding reads the row that the word selects. -/
theorem decode_eq_some_iff (w : CmdWord) (i : Instr) :
    decode w = some i ↔ ∃ r ∈ opcodeMap, w &&& r.mask = r.pattern ∧ r.make w = i := by
  have hselected : (∃ r ∈ opcodeMap, w &&& r.mask = r.pattern ∧ r.make w = i) ↔
      ∃ r ∈ opcodeMap.filter (·.selects w), r.make w = i := by
    simp [Row.selects, and_assoc]
  rw [hselected, decode, ← List.head?_filter]
  obtain hrows | ⟨r, hrows⟩ := filter_selects_cases w <;> simp [hrows]

/-! ### Decoding and encoding -/

theorem decode_encode (i : Instr) : decode (encode i) = some i := by
  cases i with
  | clSettrk t => cases t <;> rfl
  | clSetauto e => cases e <;> rfl
  | _ => rfl

/-- Every mask compares all bits but the low two (R55). -/
theorem not_mask_and_three : ∀ r ∈ opcodeMap, ~~~r.mask &&& 3 = ~~~r.mask := by decide

/-- The low two bits of a word. -/
theorem and_three (w : CmdWord) : w &&& 3 = 0#14 ++ w.setWidth 2 := BitVec.and_setWidth_allOnes 14 2 w

/-- A word that selects a row is the row's pattern with an immediate of at most two bits (R54, R55). -/
theorem eq_pattern_or_immediate {r : Row} (hr : r ∈ opcodeMap) {w : CmdWord} (hw : w &&& r.mask = r.pattern) :
    ∃ x : BitVec 2, w = r.pattern ||| (0#14 ++ x) := by
  refine ⟨(w &&& ~~~r.mask).setWidth 2, ?_⟩
  calc w = w &&& (r.mask ||| ~~~r.mask) := by rw [BitVec.or_not_self, BitVec.and_allOnes]
    _ = r.pattern ||| (w &&& ~~~r.mask) := by rw [BitVec.and_or_distrib_left, hw]
    _ = r.pattern ||| (0#14 ++ (w &&& ~~~r.mask).setWidth 2) := by
      rw [← and_three, BitVec.and_assoc, not_mask_and_three r hr]

/-- The rows one by one, with every immediate the row allows: encoding what the row makes of the word gives it back. -/
theorem encode_make_pattern_or_immediate : ∀ r ∈ opcodeMap, ∀ x : BitVec 2,
    (r.pattern ||| (0#14 ++ x)) &&& r.mask = r.pattern →
      encode (r.make (r.pattern ||| (0#14 ++ x))) = r.pattern ||| (0#14 ++ x) := by decide

theorem encode_of_decode {w : CmdWord} {i : Instr} (h : decode w = some i) : encode i = w := by
  obtain ⟨r, hr, hw, rfl⟩ := (decode_eq_some_iff w i).1 h
  obtain ⟨x, rfl⟩ := eq_pattern_or_immediate hr hw
  exact encode_make_pattern_or_immediate r hr x hw

/-- Settles O2: an encoded command evaluates back, and a word that decodes is a row's pattern with its immediate. -/
theorem decodeAndEncodeAgree : Obligations.DecodeAndEncodeAgree := ⟨decode_encode, fun _ _ => encode_of_decode⟩

/-! ### The legal words -/

theorem encode_mem_legalWords (i : Instr) : encode i ∈ legalWords := by
  cases i with
  | clSettrk t => cases t <;> decide
  | clSetauto e => cases e <;> decide
  | _ => decide

theorem decode_isSome_of_legal : legalWords.all (fun w => (decode w).isSome) := by decide

/-- R57: the words that decode are the legal ones, since a word that decodes is an encoded command. -/
theorem decode_ne_none_iff (w : CmdWord) : decode w ≠ none ↔ w ∈ legalWords := by
  constructor
  · intro h
    obtain ⟨i, hi⟩ := Option.ne_none_iff_exists'.1 h
    exact encode_of_decode hi ▸ encode_mem_legalWords i
  · exact fun hw => Option.isSome_iff_ne_none.1 (List.all_eq_true.1 decode_isSome_of_legal w hw)

/-- Settles O3, by the one row a word selects and the words that commands encode to. -/
theorem exactlyTwentyNineWordsAreLegal : Obligations.ExactlyTwentyNineWordsAreLegal :=
  ⟨rfl, by decide, fun w => ⟨length_filter_selects_le_one w, decode_eq_some_iff w, decode_ne_none_iff w⟩⟩

/-- Settles O1: each word is the encoding of its command. -/
theorem commandWordsDecodeToTheirCommands : Obligations.CommandWordsDecodeToTheirCommands :=
  ⟨decode_encode .clReset, decode_encode .clIncvec, decode_encode (.clSettrk .fine), decode_encode (.clSetauto true),
    decode_encode .pmLost, decode_encode .htPush, decode_encode .glDec, decode_encode .stDec, decode_encode .bpDec,
    decode_encode .trDec, decode_encode .blkStat⟩

/-! ### The step -/

/-- Settles O4: taking the command is putting its operands on the ports and leaving the later inputs pending. -/
theorem stepRunsTheDecodedCommand : Obligations.StepRunsTheDecodedCommand := by
  intro s w ports rest i hpending hdecode
  simp only [step, hpending, hdecode, State.present]

end Sys2Proof.Machine
end

section
/-!
The host's sequences cl.despin and dmr.payload (30_encoding.md R62, R63), each command of them run by what it answers.
-/

namespace Sys2Proof.Machine

/-! ### cl.despin -/

/-- Whole turns do not show in the vector of a phase, however far it advances from there (R67, R69). -/
theorem cos_normalizePhase_add (p x : ℝ) : Real.cos (normalizePhase p + x) = Real.cos (p + x) := by
  obtain ⟨k, hk⟩ := normalizePhase_turns p
  rw [hk, ← Real.cos_sub_int_mul_two_pi (p + x) k]
  ring_nf

theorem sin_normalizePhase_add (p x : ℝ) : Real.sin (normalizePhase p + x) = Real.sin (p + x) := by
  obtain ⟨k, hk⟩ := normalizePhase_turns p
  rw [hk, ← Real.sin_sub_int_mul_two_pi (p + x) k]
  ring_nf

/-- The state after CL.INCVEC issued by the host with no operand (R75). -/
def incvecIssued (s : State) : State :=
  { advancePhase s with ports := {}, resp := some (vectorResponse (advancePhase s)) }

theorem issue_clIncvec (s : State) : issue .clIncvec {} s = .next (incvecIssued s) := rfl

theorem outputPair_incvecIssued (s : State) :
    (incvecIssued s).outputPair = (.cos (incvecIssued s).cl.phase, .sin (incvecIssued s).cl.phase) := rfl

@[simp] theorem incvecIssued_freq (s : State) : (incvecIssued s).cl.freq = s.cl.freq := rfl

@[simp] theorem val_incvecIssued_phase (ρ : Nat → ℝ) (s : State) :
    (incvecIssued s).cl.phase.val ρ = normalizePhase (s.cl.phase.val ρ + s.cl.freq.val ρ) := by
  simp [incvecIssued]

/-- Settles O27, by induction on the number of samples: after CL.INCVEC the phase is one frequency further, whole turns
set aside, so the pairs that follow are those of the new phase, one sample later. -/
theorem despinFollowsTheCarrier : Obligations.DespinFollowsTheCarrier := by
  intro ρ n
  induction n with
  | zero => exact fun s => ⟨s, [], rfl, rfl, fun m h => absurd h (Nat.not_lt_zero m)⟩
  | succ n ih =>
    intro s
    obtain ⟨t, pairs, hrun, hlength, hpairs⟩ := ih (incvecIssued s)
    refine ⟨t, (incvecIssued s).outputPair :: pairs, ?_, congrArg (· + 1) hlength, fun m hm => ?_⟩
    · simp only [clDespin, issue_clIncvec, andThen, hrun]
    cases m with
    | zero =>
      have hcos := cos_normalizePhase_add (s.cl.phase.val ρ + s.cl.freq.val ρ) 0
      have hsin := sin_normalizePhase_add (s.cl.phase.val ρ + s.cl.freq.val ρ) 0
      simpa [outputPair_incvecIssued] using And.intro hcos hsin
    | succ m =>
      obtain ⟨hcos, hsin⟩ := hpairs m (Nat.lt_of_succ_lt_succ hm)
      have hlater : s.cl.phase.val ρ + s.cl.freq.val ρ + (m + 1) * s.cl.freq.val ρ =
          s.cl.phase.val ρ + (↑(m + 1) + 1) * s.cl.freq.val ρ := by push_cast; ring
      rw [val_incvecIssued_phase, incvecIssued_freq, cos_normalizePhase_add, hlater] at hcos
      rw [val_incvecIssued_phase, incvecIssued_freq, sin_normalizePhase_add, hlater] at hsin
      exact ⟨hcos, hsin⟩

/-! ### dmr.payload -/

/-- The state after a decoder command issued by the host. -/
def decoderIssued (i : Instr) (ports : Ports) (s : State) : State :=
  { s with ports := ports, resp := some (decoderResponse s.params ports i) }

theorem issue_decoder {i : Instr} (hi : i ∈ decoderCommands) (ports : Ports) (s : State) :
    issue i ports s = .next (decoderIssued i ports s) := by
  rw [issue_eq_exec, exec_decoder hi]
  rfl

/-- The response of ST.DEC to the burst, on which dmr.payload decides (R63). -/
def slotTypeOf (p : Params) (b : Burst) : Response := decoderResponse p { burst := b } .stDec

/-- The state after ST.DEC and then the decoder `i`, both issued by the host with the burst. -/
def payloadIssued (i : Instr) (b : Burst) (s : State) : State :=
  decoderIssued i { burst := b } (decoderIssued .stDec { burst := b } s)

/-- The two commands of dmr.payload run, and what is left of its rule is the branch on the slot type (R63). -/
theorem dmrPayload_eq (b : Burst) (s : State) : dmrPayload b s =
    if (slotTypeOf s.params b).rvalid && (slotTypeOf s.params b).rdt == 8 then
      .next (payloadIssued .trDec b s, .trellis (trellisResponse s.params b).rp144,
        (slotTypeOf s.params b).rvalid && (trellisResponse s.params b).rvalid)
    else if (slotTypeOf s.params b).rvalid && (slotTypeOf s.params b).rdt == 10 then
      .next (payloadIssued .bpExt b s, .raw (bptcExtract b), (slotTypeOf s.params b).rvalid)
    else
      .next (payloadIssued .bpDec b s, .bptc (bptcResponse s.params b).rp96,
        (slotTypeOf s.params b).rvalid && (bptcResponse s.params b).rvalid) := by
  simp (disch := decide) only [dmrPayload, issue_decoder, andThen]
  rfl

/-- Settles O60: one case a decoder, BP.DEC's for a valid slot type of another code and for an invalid one. -/
theorem dmrPayloadDispatchesAfterValidity : Obligations.DmrPayloadDispatchesAfterValidity := by
  intro s b
  have hslot : exec .stDec { s with ports := { burst := b } } = .next (decoderIssued .stDec { burst := b } s) :=
    exec_decoder (by decide) _
  have hrun := dmrPayload_eq b s
  split at hrun
  · next htrellis =>
    obtain ⟨hvalid, hcode⟩ : (slotTypeOf s.params b).rvalid = true ∧ (slotTypeOf s.params b).rdt = 8 := by
      simpa using htrellis
    refine ⟨_, _, slotTypeOf s.params b, _, _, hslot, rfl, hrun, ?_, ?_, ?_, ?_, rfl⟩ <;> simp [hvalid, hcode]
  · next hother =>
    split at hrun
    · next hraw =>
      obtain ⟨hvalid, hcode⟩ : (slotTypeOf s.params b).rvalid = true ∧ (slotTypeOf s.params b).rdt = 10 := by
        simpa using hraw
      refine ⟨_, _, slotTypeOf s.params b, _, _, hslot, rfl, hrun, ?_, ?_, ?_, ?_, rfl⟩ <;> simp [hvalid, hcode]
    · next hbptc =>
      simp only [Bool.and_eq_true, beq_iff_eq, not_and] at hother hbptc
      exact ⟨_, _, slotTypeOf s.params b, _, _, hslot, rfl, hrun, fun hvalid h8 => absurd h8 (hother hvalid),
        fun hvalid h10 => absurd h10 (hbptc hvalid), fun hvalid _ _ => ⟨rfl, by simp [hvalid]⟩,
        fun hvalid => ⟨rfl, by simp [hvalid]⟩, rfl⟩

end Sys2Proof.Machine
end

section
/-!
The arithmetic of the Costas loop over the reals (40_costas_loop.md R66 to R68): the gain formulas, the turns of the
phase loops and the clamp.
-/

namespace Sys2Proof.Machine

/-! ### Gains -/

/-- R66: `den(B) > 1`, from which both gains are finite and positive. -/
theorem one_lt_gainDen {b : ℝ} (hb : 0 < b) : 1 < 1 + 2 * (Real.sqrt 2 / 2) * b + b * b := by
  have h : 0 < 2 * (Real.sqrt 2 / 2) * b + b * b := by positivity
  linarith

theorem alphaReal_pos {b : ℝ} (hb : 0 < b) : 0 < alphaReal b :=
  div_pos (by positivity) (one_pos.trans (one_lt_gainDen hb))

theorem betaReal_pos {b : ℝ} (hb : 0 < b) : 0 < betaReal b :=
  div_pos (by positivity) (one_pos.trans (one_lt_gainDen hb))

/-- Twelve decimal places of `sqrt(2)`. -/
theorem sqrt_two_bounds : 1.414213562373 < Real.sqrt 2 ∧ Real.sqrt 2 < 1.414213562374 :=
  ⟨Real.lt_sqrt_of_sq_lt (by norm_num), (Real.sqrt_lt' (by norm_num)).2 (by norm_num)⟩

/-- A quotient is near `c` where its numerator is near `c` times its denominator. -/
theorem abs_div_sub_le {a d c ε : ℝ} (hd : 0 < d) (hlow : (c - ε) * d ≤ a) (hhigh : a ≤ (c + ε) * d) :
    |a / d - c| ≤ ε := by
  rw [abs_sub_le_iff, sub_le_iff_le_add', sub_le_comm]
  exact ⟨(div_le_iff₀ hd).2 hhigh, (le_div_iff₀ hd).2 hlow⟩

/-- The worked values of R66, from bounds of `sqrt(2)`. -/
theorem gains_at_one_tenth :
    |alphaReal (1 / 10) - 0.245646574942| ≤ 1 / 10 ^ 11 ∧ |betaReal (1 / 10) - 0.0347396717833| ≤ 1 / 10 ^ 11 := by
  have hden := one_pos.trans (one_lt_gainDen (b := 1 / 10) (by norm_num))
  obtain ⟨hlow, hhigh⟩ := sqrt_two_bounds
  exact ⟨abs_div_sub_le hden (by linarith) (by linarith), abs_div_sub_le hden (by linarith) (by linarith)⟩

/-- Settles O14: the values of the gain terms are the formulas, whose denominator is above 1. -/
theorem gainsFollowTheFormulas : Obligations.GainsFollowTheFormulas := by
  refine ⟨fun ρ b hb => ⟨one_lt_gainDen hb, val_alphaOf ρ b, val_betaOf ρ b, ?_, ?_⟩, gains_at_one_tenth⟩
  · rw [val_alphaOf]
    exact alphaReal_pos hb
  · rw [val_betaOf]
    exact betaReal_pos hb

/-! ### The phase loops and the clamp -/

/-- R67: within one turn neither loop runs. -/
theorem normalizePhase_within {p : ℝ} (hlow : -(2 * Real.pi) < p) (hhigh : p < 2 * Real.pi) :
    normalizePhase p = p := by
  have hturn := Real.two_pi_pos
  rcases le_total 0 p with hp | hp
  · have hfloor : ⌊p / (2 * Real.pi)⌋₊ = 0 := Nat.floor_eq_zero.2 ((div_lt_one hturn).2 hhigh)
    simp [(normalizePhase_of_nonneg hp).1, hfloor]
  · have hfloor : ⌊-p / (2 * Real.pi)⌋₊ = 0 := Nat.floor_eq_zero.2 ((div_lt_one hturn).2 (by linarith))
    simp [(normalizePhase_of_nonpos hp).1, hfloor]

/-- R67: one turn of the subtracting loop. -/
theorem normalizePhase_sub_turn {p : ℝ} (hp : 2 * Real.pi ≤ p) :
    normalizePhase (p - 2 * Real.pi) = normalizePhase p := by
  have hturn := Real.two_pi_pos
  have hquot : (p - 2 * Real.pi) / (2 * Real.pi) = p / (2 * Real.pi) - 1 := by rw [sub_div, div_self hturn.ne']
  have hfloor : 1 ≤ ⌊p / (2 * Real.pi)⌋₊ := (Nat.one_le_floor_iff _).2 ((one_le_div hturn).2 hp)
  rw [(normalizePhase_of_nonneg (sub_nonneg.2 hp)).1, (normalizePhase_of_nonneg (hturn.le.trans hp)).1, hquot,
    Nat.floor_sub_one, Nat.cast_pred hfloor]
  ring

/-- The two loops of R67 mirror each other. -/
theorem normalizePhase_neg (p : ℝ) : normalizePhase (-p) = -normalizePhase p := by
  rcases le_total 0 p with hp | hp
  · rw [(normalizePhase_of_nonpos (neg_nonpos.2 hp)).1, (normalizePhase_of_nonneg hp).1, neg_neg]
    ring
  · rw [(normalizePhase_of_nonneg (neg_nonneg.2 hp)).1, (normalizePhase_of_nonpos hp).1]
    ring

/-- R67: one turn of the adding loop. -/
theorem normalizePhase_add_turn {p : ℝ} (hp : p ≤ -(2 * Real.pi)) :
    normalizePhase (p + 2 * Real.pi) = normalizePhase p := by
  have hmirror := normalizePhase_sub_turn (p := -p) (le_neg.2 hp)
  rwa [← neg_add', normalizePhase_neg, normalizePhase_neg, neg_inj] at hmirror

/-- Settles O15: the loops turn by turn, and the ranges of the phases on either side of 0. -/
theorem normalizePhaseFollowsTheLoops : Obligations.NormalizePhaseFollowsTheLoops := by
  have hturn := Real.two_pi_pos
  intro p
  refine ⟨fun hp => ?_, fun hp => ?_, normalizePhase_within⟩
  · exact ⟨(normalizePhase_sub_turn hp).symm, (normalizePhase_of_nonneg (hturn.le.trans hp)).2⟩
  · exact ⟨(normalizePhase_add_turn hp).symm, (normalizePhase_of_nonpos (by linarith)).2⟩

/-- Settles O16, by the two comparisons of the clamp. -/
theorem frequencyClampTakesTheNearerBound : Obligations.FrequencyClampTakesTheNearerBound := by
  intro bound f hbound
  simp only [clampFreqReal, clampReal]
  refine ⟨fun hlow hhigh => ?_, fun habove => ?_, fun hbelow => if_pos hbelow⟩
  · rw [if_neg hlow.not_gt, if_neg hhigh.not_gt]
  · rw [if_neg (by linarith), if_pos habove]

end Sys2Proof.Machine
end

section
/-!
The Costas loop commands (40_costas_loop.md R70 to R79, R81): what each writes, as real numbers, and the free-running
phase.
-/

namespace Sys2Proof.Machine

/-! ### What the loop operations write -/

section values
variable (ρ : Nat → ℝ) (s : State) (x : RealTerm)

theorem val_adjustLoop_phase : (adjustLoop x s).cl.phase.val ρ =
    normalizePhase (s.cl.phase.val ρ + (s.cl.freq.val ρ + s.cl.beta.val ρ * x.val ρ) + s.cl.alpha.val ρ * x.val ρ) := by
  simp [adjustLoop]

theorem val_adjustLoop_freq : (adjustLoop x s).cl.freq.val ρ =
    clampFreqReal (maxFreqReal ρ s.params) (s.cl.freq.val ρ + s.cl.beta.val ρ * x.val ρ) := by
  simp [adjustLoop]

theorem val_correctFreq_freq : (correctFreq x s).cl.freq.val ρ =
    wrapFreqReal (maxFreqReal ρ s.params) (s.cl.freq.val ρ + x.val ρ) := by
  simp [correctFreq]

theorem val_advancePhase_phase :
    (advancePhase s).cl.phase.val ρ = normalizePhase (s.cl.phase.val ρ + s.cl.freq.val ρ) := by
  simp
end values

/-! ### The commands without an operand -/

/-- Settles O17: the state CL.RESET leaves, its gains by set_tracking(SEARCHING). -/
theorem clResetRestartsTheLoop : Obligations.ClResetRestartsTheLoop := by
  intro ρ s
  have hzero : (RealTerm.rat 0).val ρ = 0 := by simp
  exact ⟨(loopReset s).respond {}, rfl, hzero, hzero, rfl, rfl, val_alphaOf ρ _, val_betaOf ρ _, rfl⟩

/-- Settles O18. -/
theorem clIncAdvancesThePhase : Obligations.ClIncAdvancesThePhase := fun ρ s =>
  ⟨(advancePhase s).respond {}, rfl, val_advancePhase_phase ρ s, rfl⟩

/-- Settles O20: the vector is a unit vector by the Pythagorean identity. -/
theorem clVecReadsTheCarrierVector : Obligations.ClVecReadsTheCarrierVector := by
  intro ρ s
  refine ⟨.cos s.cl.phase, .sin s.cl.phase, exec_statusRead (by decide) s, val_cos ρ _, val_sin ρ _, ?_⟩
  rw [val_cos, val_sin, ← sq, ← sq, Real.cos_sq_add_sin_sq]

/-- Settles O21: CL.VEC does not see the response of CL.INC, so it answers the vector of the advanced phase. -/
theorem clIncvecIsIncThenVec : Obligations.ClIncvecIsIncThenVec := by
  intro ρ s
  have hvec : exec .clVec ((advancePhase s).respond {}) =
      .next ((advancePhase s).respond (vectorResponse (advancePhase s))) := exec_statusRead (by decide) _
  exact ⟨_, _, .cos (advancePhase s).cl.phase, .sin (advancePhase s).cl.phase, rfl, hvec, rfl, rfl,
    val_advancePhase_phase ρ s, val_cos ρ _, val_sin ρ _⟩

/-- Settles O23: the gains of a tracking state are the values of its gain terms. -/
theorem clSettrkSetsStateAndGains : Obligations.ClSettrkSetsStateAndGains := fun ρ s x =>
  ⟨(setTracking x s).respond {}, rfl, rfl, val_alphaOf ρ _, val_betaOf ρ _, rfl⟩

/-- Settles O24. -/
theorem clSetautoWritesTheEnable : Obligations.ClSetautoWritesTheEnable := fun _ _ => rfl

/-- Settles O25, one case a port code. -/
theorem clStatReadsTheLoopRegisters : Obligations.ClStatReadsTheLoopRegisters := by
  intro s
  simp only [exec_statusRead (i := .clStat) (by decide), statusResponse, State.respond]
  cases s.cl.trk <;> rfl

/-! ### The commands with a REAL operand -/

theorem exec_clAdj_finite {s : State} {e : RealTerm} (he : s.ports.opa = .finite e) :
    exec .clAdj s = .next ((autoTrack (adjustLoop e s)).respond {}) := by
  simp [exec, execClAdj, he]

theorem exec_clCorr_finite {s : State} {c : RealTerm} (hc : s.ports.opa = .finite c) :
    exec .clCorr s = .next ((correctFreq c s).respond {}) := by
  simp [exec, execClCorr, hc]

/-- Settles O19: without the automatic path the adjusted loop is all there is; with it set_tracking follows, which
keeps phase and frequency. -/
theorem clAdjAppliesThePhaseError : Obligations.ClAdjAppliesThePhaseError := by
  intro ρ s e he
  have hphase := val_adjustLoop_phase ρ s e
  have hfreq := val_adjustLoop_freq ρ s e
  refine ⟨_, exec_clAdj_finite he, ?_⟩
  rcases autoTrack_cases (adjustLoop e s) with ⟨hmanual, hrun⟩ | ⟨hauto, hrun⟩
  · rw [hrun]
    exact ⟨hphase, hfreq, fun _ => rfl, fun hauto => absurd (hmanual.symm.trans hauto) Bool.false_ne_true⟩
  · rw [hrun]
    exact ⟨hphase, hfreq, fun hmanual => absurd (hmanual.symm.trans hauto) Bool.false_ne_true,
      fun _ => ⟨val_alphaOf ρ _, val_betaOf ρ _, hauto, rfl⟩⟩

/-- Settles O22, by the wrap of a frequency within, above and below the bounds. -/
theorem clCorrWrapsTheFrequency : Obligations.ClCorrWrapsTheFrequency := by
  intro ρ s c hrates hc
  have hbound := maxFreqReal_pos hrates
  refine ⟨_, exec_clCorr_finite hc, rfl, ?_⟩
  rw [respond_cl, val_correctFreq_freq]
  exact ⟨wrapFreqReal_within hbound, wrapFreqReal_above hbound, wrapFreqReal_below hbound⟩

/-! ### Free running -/

/-- Settles O26, by induction on the number of CL.INC: each adds the frequency once and takes whole turns away. -/
theorem freeRunningPhaseIsLinear : Obligations.FreeRunningPhaseIsLinear := by
  intro ρ n
  induction n with
  | zero => exact fun s hs => ⟨s, rfl, hs, rfl, 0, by simp⟩
  | succ n ih =>
    intro s _
    obtain ⟨t, hrun, ht, hfreq, k, hk⟩ := ih ((advancePhase s).respond {}) (normalizePhase_range _)
    obtain ⟨m, hm⟩ := normalizePhase_turns (s.cl.phase.val ρ + s.cl.freq.val ρ)
    refine ⟨t, hrun, ht, hfreq, m + k, ?_⟩
    rw [hk, respond_cl, val_advancePhase_phase, advancePhase_freq, hm]
    push_cast
    ring

end Sys2Proof.Machine
end

section
/-!
The register invariant (10_state.md R20 to R26, R34; 40_costas_loop.md R80; 41_sync_monitor.md R102): each operation of
the commands keeps it, so each command's effect on the registers does, and so does each step.
-/

namespace Sys2Proof.Machine

variable {ρ : Nat → ℝ} {s : State}

/-! ### The operations keep the invariant -/

/-- Every tracking state comes with its gains (40_costas_loop.md R71). -/
theorem setTracking_gains (l : TrackingState) (s : State) : GainsFollowTracking ρ (setTracking l s) :=
  ⟨val_alphaOf ρ _, val_betaOf ρ _⟩

theorem setTracking_inv {l : TrackingState} (hs : Inv ρ s) : Inv ρ (setTracking l s) :=
  { hs with gains := setTracking_gains l s }

theorem loopReset_inv (hrates : s.params.RatesPositive ρ) (hs : Inv ρ s) : Inv ρ (loopReset s) :=
  { hs with
    phase := by simp [PhaseInRange, loopReset, Real.pi_pos]
    freq := by simp [FreqInRange, loopReset, (maxFreqReal_pos hrates).le]
    gains := setTracking_gains _ _ }

theorem advancePhase_inv (hs : Inv ρ s) : Inv ρ (advancePhase s) :=
  { hs with phase := normalizePhase_range _ }

theorem adjustLoop_inv (hrates : s.params.RatesPositive ρ) (hs : Inv ρ s) (e : RealTerm) : Inv ρ (adjustLoop e s) :=
  { hs with
    phase := normalizePhase_range _
    freq := by simpa [FreqInRange, adjustLoop] using clampFreqReal_range (maxFreqReal_pos hrates).le _ }

theorem correctFreq_inv (hrates : s.params.RatesPositive ρ) (hs : Inv ρ s) (c : RealTerm) : Inv ρ (correctFreq c s) :=
  { hs with freq := by simpa [FreqInRange, correctFreq] using wrapFreqReal_range (maxFreqReal_pos hrates) _ }

theorem autoTrack_inv (hs : Inv ρ s) : Inv ρ (autoTrack s) := by
  rcases autoTrack_cases s with ⟨-, e⟩ | ⟨-, e⟩ <;> rw [e]
  · exact hs
  · exact setTracking_inv { hs with }

theorem applyLevel_gains {l : TrackingState} (hs : GainsFollowTracking ρ s) :
    GainsFollowTracking ρ (applyLevel l s) := by
  rcases applyLevel_cases l s with ⟨-, e⟩ | ⟨-, e⟩ <;> rw [e]
  · exact hs
  · exact setTracking_gains l _

/-- A sync event keeps the count within its bound and applies the level of the new count (41_sync_monitor.md R98, R99,
R102). -/
theorem countEvent_inv (hs : Inv ρ s) (d : Int) : Inv ρ (countEvent d s) where
  phase := by simpa [PhaseInRange] using hs.phase
  freq := by simpa [FreqInRange] using hs.freq
  gains := by unfold countEvent; exact applyLevel_gains hs.gains
  count := by simpa [CountInRange, countEvent] using countUpdate_le s.params s.pm.count d
  level := by simp [LevelFollowsCount, countEvent]
  err := by simpa [ErrorRecordLegal] using hs.err

theorem monitorReset_inv (htable : s.params.SyncTableValid) (hs : Inv ρ s) : Inv ρ (monitorReset s) :=
  { hs with
    gains := setTracking_gains _ _
    count := Nat.zero_le _
    level := (levelOf_zero htable).symm }

theorem hilbertReset_inv (hs : Inv ρ s) : Inv ρ (hilbertReset s) := { hs with }

theorem blockReset_inv (hrates : s.params.RatesPositive ρ) (htable : s.params.SyncTableValid) (hs : Inv ρ s) :
    Inv ρ (blockReset s) :=
  hilbertReset_inv (monitorReset_inv htable (loopReset_inv hrates { hs with err := .inl rfl }))

/-- A reject records a word that does not decode (60_exceptions.md R174). -/
theorem reject_inv {w : CmdWord} (hs : Inv ρ s) (hw : decode w = none) : Inv ρ (reject w s) :=
  { hs with err := .inr ⟨rfl, rfl, hw⟩ }

/-! ### Commands and steps keep the invariant -/

/-- Every command's effect on the registers keeps the invariant. -/
theorem RegisterEffect.inv {i : Instr} {u : State} (heffect : RegisterEffect s i u)
    (hrates : s.params.RatesPositive ρ) (htable : s.params.SyncTableValid) (hs : Inv ρ s) : Inv ρ u := by
  cases heffect with
  | answers => exact hs
  | clReset => exact loopReset_inv hrates hs
  | clInc | clIncvec => exact advancePhase_inv hs
  | clAdj e => exact autoTrack_inv (adjustLoop_inv hrates hs e)
  | clCorr c => exact correctFreq_inv hrates hs c
  | clSettrk x => exact setTracking_inv hs
  | clSetauto => exact { hs with }
  | pmReset => exact monitorReset_inv htable hs
  | pmDet | pmLost => exact countEvent_inv hs _
  | htReset => exact hilbertReset_inv hs
  | htPush => exact { hs with }
  | blkReset => exact blockReset_inv hrates htable hs

/-- Settles O10, by what a step can do: an idle step holds the state, the reset input and a reject are operations that
keep the invariant, and a command has its effect on the registers and responds. -/
theorem everyStepKeepsTheRegisterInvariant : Obligations.EveryStepKeepsTheRegisterInvariant := by
  intro ρ s t hrates htable hs h
  rcases step_cases h with ⟨-, rfl⟩ | ⟨rest, -, rfl⟩ | ⟨w, ports, rest, -, hw, rfl⟩ | ⟨w, ports, rest, i, -, -, hexec⟩
  · exact ⟨hs, rfl⟩
  · exact ⟨blockReset_inv hrates htable { hs with }, rfl⟩
  · exact ⟨reject_inv { hs with } hw, rfl⟩
  · obtain ⟨hparams, -⟩ := registersChangeOnlyByTheirWriters i _ t hexec
    obtain ⟨u, r, heffect, rfl⟩ := exec_registerEffect hexec
    have hu : Inv ρ u := heffect.inv hrates htable { hs with }
    exact ⟨{ hu with }, hparams⟩

end Sys2Proof.Machine
end

section
/-!
The sync monitor commands (41_sync_monitor.md R94, R97 to R101): what a sync event writes, and what the commands answer.
-/

namespace Sys2Proof.Machine

/-! ### What a sync event writes -/

section countEvent
variable (d : Int) (s : State)

/-- What a sync event can do: the count moves, and a level other than the monitor's own is applied to the loop too
(R96, R98, R99). -/
theorem countEvent_cases :
    ((countEvent d s).pm.level = s.pm.level ∧ countEvent d s = { s with pm := (countEvent d s).pm }) ∨
      ((countEvent d s).pm.level ≠ s.pm.level ∧
        countEvent d s = setTracking (countEvent d s).pm.level { s with pm := (countEvent d s).pm }) := by
  unfold countEvent
  rcases applyLevel_cases (levelOf s.params (countUpdate s.params s.pm.count d))
    { s with pm := { s.pm with count := countUpdate s.params s.pm.count d } } with ⟨-, e⟩ | ⟨hnew, e⟩
  · exact .inl ⟨by rw [e], by rw [e]⟩
  · exact .inr ⟨by rwa [applyLevel_level], by rw [e]; rfl⟩

@[simp] theorem countEvent_count : (countEvent d s).pm.count = countUpdate s.params s.pm.count d := by
  simp [countEvent]

@[simp] theorem countEvent_level :
    (countEvent d s).pm.level = levelOf s.params (countUpdate s.params s.pm.count d) := by
  simp [countEvent]

/-- A level that stays leaves the loop as it is (R96). -/
theorem countEvent_cl_of_level_eq (h : (countEvent d s).pm.level = s.pm.level) : (countEvent d s).cl = s.cl := by
  rcases countEvent_cases d s with ⟨-, e⟩ | ⟨hnew, -⟩
  · rw [e]
  · exact absurd h hnew

/-- A level that changes is the loop's new tracking state, with its gains (R96). -/
theorem countEvent_cl_of_level_ne (h : (countEvent d s).pm.level ≠ s.pm.level) :
    (countEvent d s).cl = (setTracking (countEvent d s).pm.level s).cl := by
  rcases countEvent_cases d s with ⟨hsame, -⟩ | ⟨-, e⟩
  · exact absurd hsame h
  · rw [e]; rfl

/-- A sync event writes nothing but the monitor, the tracking state and its gains (R98, R99). -/
theorem countEvent_eq_update : countEvent d s = { s with
    cl := { s.cl with
      trk := (countEvent d s).cl.trk
      alpha := (countEvent d s).cl.alpha
      beta := (countEvent d s).cl.beta }
    pm := (countEvent d s).pm } := by
  rcases countEvent_cases d s with ⟨-, e⟩ | ⟨-, e⟩
  · rw [e]
  · rw [e]; rfl

/-- A sync event neither reads nor writes the operand ports (R94). -/
theorem countEvent_ports (ports : Ports) :
    countEvent d { s with ports := ports } = { countEvent d s with ports := ports } := by
  simp only [countEvent, applyLevel]
  split <;> rfl
end countEvent

/-- A SYNC_LEVEL table over 0..MAX_SYNC_COUNT has an entry for every count in that range (R92). -/
theorem getElem?_syncLevel {p : Params} (htable : p.SyncTableValid) {c : BitVec 16}
    (hc : c.toNat ≤ p.maxSyncCount.toNat) : p.syncLevel[c.toNat]? = some (levelOf p c) := by
  obtain ⟨hlength, -⟩ := htable
  have hlt : c.toNat < p.syncLevel.length := by omega
  simp [levelOf, hlt]

/-- The state after a sync event has the level of its count, and the loop follows a level that changed (R92, R96). -/
theorem countEvent_respond_applies_level (ρ : Nat → ℝ) (d : Int) {s t : State} (htable : s.params.SyncTableValid)
    (ht : t = (countEvent d s).respond {}) :
    s.params.syncLevel[t.pm.count.toNat]? = some t.pm.level ∧
    (t.pm.level = s.pm.level → t.cl = s.cl) ∧
    (t.pm.level ≠ s.pm.level → t.cl.trk = t.pm.level ∧
      t.cl.alpha.val ρ = alphaReal ((loopBw s.params t.pm.level).val ρ) ∧
      t.cl.beta.val ρ = betaReal ((loopBw s.params t.pm.level).val ρ)) ∧
    t = { s with
      cl := { s.cl with trk := t.cl.trk, alpha := t.cl.alpha, beta := t.cl.beta }
      pm := t.pm
      resp := some {} } := by
  subst ht
  refine ⟨?_, countEvent_cl_of_level_eq d s, fun hnew => ?_, congrArg (State.respond {}) (countEvent_eq_update d s)⟩
  · simpa using getElem?_syncLevel htable (countUpdate_le s.params s.pm.count d)
  · rw [respond_cl, countEvent_cl_of_level_ne d s hnew]
    exact ⟨rfl, val_alphaOf ρ _, val_betaOf ρ _⟩

/-! ### The commands -/

/-- Settles O28: the state PM.RESET leaves, its gains by set_tracking(SEARCHING). -/
theorem pmResetForcesSearching : Obligations.PmResetForcesSearching := fun ρ s =>
  ⟨(monitorReset s).respond {}, rfl, rfl, val_alphaOf ρ _, val_betaOf ρ _, rfl⟩

/-- Settles O29: a sync event with a step up by one. -/
theorem pmDetCountsUpAndAppliesTheLevel : Obligations.PmDetCountsUpAndAppliesTheLevel := by
  intro ρ s htable
  refine ⟨(countEvent 1 s).respond {}, rfl, ?_, countEvent_respond_applies_level ρ 1 htable rfl⟩
  rw [respond_pm, countEvent_count, countUpdate_up]

/-- Settles O30: a sync event with a step down by two. -/
theorem pmLostCountsDownAndAppliesTheLevel : Obligations.PmLostCountsDownAndAppliesTheLevel := by
  intro ρ s htable
  refine ⟨(countEvent (-2) s).respond {}, rfl, ?_, countEvent_respond_applies_level ρ (-2) htable rfl⟩
  rw [respond_pm, countEvent_count, countUpdate_down]

/-- A command that is a sync event does the same whatever stands on OPN (R94). -/
theorem exec_ignores_opn {i : Instr} {d : Int} (hexec : ∀ s, exec i s = .next ((countEvent d s).respond {}))
    (s : State) (n : BitVec 32) : ∃ t, exec i s = .next t ∧
      exec i { s with ports := { s.ports with opn := n } } = .next { t with ports := { t.ports with opn := n } } := by
  have hports : (countEvent d s).ports = s.ports := by rw [countEvent_eq_update]
  refine ⟨(countEvent d s).respond {}, hexec s, ?_⟩
  rw [hexec, countEvent_ports, respond_ports, hports]
  rfl

/-- Settles O31: both commands are sync events, which the operand ports do not reach. -/
theorem syncEventArgumentsAreIgnored : Obligations.SyncEventArgumentsAreIgnored := by
  intro i hi
  simp only [List.mem_cons, List.not_mem_nil, or_false] at hi
  rcases hi with rfl | rfl
  · exact exec_ignores_opn (d := 1) fun _ => rfl
  · exact exec_ignores_opn (d := -2) fun _ => rfl

/-- PM.FERR runs on a finite operand, and answers by the gate of R100. -/
theorem exec_pmFerr_finite {s : State} {m : RealTerm} (hopa : s.ports.opa = .finite m) :
    exec .pmFerr s = .next (s.respond (ferrResponse m s)) := by
  simp [exec, execPmFerr, hopa]

/-- Settles O32: the response is the gate's, a count above the threshold forwarding the measurement. -/
theorem pmFerrGatesByTheThreshold : Obligations.PmFerrGatesByTheThreshold := fun _ _ hopa =>
  exec_pmFerr_finite hopa

/-- Settles O33: PM.STAT is a status read; one case a port code. -/
theorem pmStatReadsTheMonitorRegisters : Obligations.PmStatReadsTheMonitorRegisters := by
  intro s
  simp only [exec_statusRead (i := .pmStat) (by decide), statusResponse, State.respond]
  cases s.pm.level <;> rfl

end Sys2Proof.Machine
end

section
/-!
The Hilbert FIR (42_hilbert_fir.md R104 to R109): what its two commands answer, a block of pushes as a function of its
samples, and the delay line as a window on all samples since HT.RESET.
-/

namespace Sys2Proof.Machine

/-! ### The commands -/

/-- HT.RESET from any state (R105). -/
theorem exec_htReset (s : State) : exec .htReset s = .next ((hilbertReset s).respond {}) := rfl

@[simp] theorem hilbertReset_tap (s : State) (j : Nat) : (hilbertReset s).ht.tap j = .rat 0 := tap_cleared false j

@[simp] theorem hilbertReset_sign (s : State) : (hilbertReset s).ht.sign = false := rfl

/-- HT.PUSH runs on a finite pair (R106). -/
theorem exec_htPush_finite {s : State} {a b : RealTerm} (hopa : s.ports.opa = .finite a)
    (hopb : s.ports.opb = .finite b) :
    exec .htPush s = .next ({ s with ht := pushPair a b s.ht }.respond (pushResponse s.params a b s.ht)) := by
  simp [exec, execHtPush, hopa, hopb]

/-- Settles O35: every tap of the line HT.RESET leaves is 0. -/
theorem htResetClearsTheDelayLine : Obligations.HtResetClearsTheDelayLine := fun _ s =>
  ⟨(hilbertReset s).respond {}, exec_htReset s, fun j _ => by simp, rfl, rfl⟩

/-- Settles O36: the line and the response that HT.PUSH leaves, tap by tap. -/
theorem htPushFiltersOnePair : Obligations.HtPushFiltersOnePair := by
  intro ρ s a b hopa hopb
  obtain ⟨hinphase, hquadrature⟩ := val_pushResponse ρ s.params a b s.ht
  have haged : ∀ j, 2 ≤ j → j ≤ 46 → (pushPair a b s.ht).tap j = s.ht.tap (j - 2) := by
    intro j hlow hhigh
    obtain ⟨i, rfl⟩ := Nat.exists_eq_add_of_le' hlow
    exact pushPair_tap_add_two a b s.ht hhigh
  exact ⟨_, _, _, exec_htPush_finite hopa hopb, rfl, pushPair_tap_zero a b s.ht, pushPair_tap_one a b s.ht, haged,
    pushPair_sign a b s.ht, hinphase, hquadrature⟩

/-! ### The coefficients -/

/-- The coefficients left of centre (R104). -/
theorem val_quadCoeff_left (ρ : Nat → ℝ) (p : Params) {k : Nat} (hk : k ≤ 11) :
    (quadCoeff p k).val ρ = -(2 * (halfband p (2 * k)).val ρ) := by
  rw [val_quadCoeff, if_pos (by omega), mul_neg_one]

/-- The coefficients right of centre (R104). -/
theorem val_quadCoeff_right (ρ : Nat → ℝ) (p : Params) {k : Nat} (hk : 12 ≤ k) :
    (quadCoeff p k).val ρ = 2 * (halfband p (2 * k)).val ρ := by
  rw [val_quadCoeff, if_neg (by omega), mul_one]

/-- The right half mirrors the left with the other sign, as the prototype is symmetric (R103, R104). -/
theorem val_quadCoeff_mirror {ρ : Nat → ℝ} {p : Params} (hsymm : p.HalfbandSymmetric ρ) {k : Nat} (hk : k ≤ 11) :
    (quadCoeff p (23 - k)).val ρ = -(quadCoeff p k).val ρ := by
  have hplace : 2 * (23 - k) = 46 - 2 * k := by omega
  rw [val_quadCoeff_right ρ p (by omega), val_quadCoeff_left ρ p hk, hplace, ← hsymm (2 * k) (by omega), neg_neg]

/-- Settles O37: the two halves, each the mirror of the other. -/
theorem quadratureCoefficientsFromThePrototype : Obligations.QuadratureCoefficientsFromThePrototype := by
  refine fun ρ p => ⟨fun k hk => val_quadCoeff_left ρ p hk, fun k hk _ => val_quadCoeff_right ρ p hk,
    fun hsymm k hk => ?_⟩
  rcases Nat.lt_or_ge k 12 with hleft | hright
  · exact val_quadCoeff_mirror hsymm (by omega)
  · have hmirror := val_quadCoeff_mirror hsymm (k := 23 - k) (by omega)
    rw [Nat.sub_sub_self hk] at hmirror
    rw [hmirror, neg_neg]

/-! ### A block of pushes -/

/-- The state and the outputs after HT.PUSH of each pair of a block; a last sample without a partner is left out. -/
def pushBlock : List RealTerm → State → State × List (RealTerm × RealTerm)
  | [], s => (s, [])
  | [_], s => (s, [])
  | a :: b :: xs, s =>
    let out := pushBlock xs (pushed a b s)
    (out.1, (pushed a b s).outputPair :: out.2)

/-- What is left of an even block after a pair is even. -/
theorem length_even_of_cons_cons {a b : RealTerm} {xs : List RealTerm} (heven : (a :: b :: xs).length % 2 = 0) :
    xs.length % 2 = 0 :=
  (Nat.add_mod_right xs.length 2).symm.trans heven

/-- An even block of finite samples goes on (30_encoding.md R61). -/
theorem pushSamples_even {xs : List RealTerm} (heven : xs.length % 2 = 0) (s : State) :
    pushSamples (xs.map .finite) s = .next (pushBlock xs s) := by
  induction xs, s using pushBlock.induct with
  | case1 s => rfl
  | case2 x s => exact absurd heven (by simp)
  | case3 a b xs s ih =>
    rw [pushSamples_cons, ih (length_even_of_cons_cons heven)]
    rfl

/-- One output pair for every two samples (R107). -/
theorem pushBlock_length {xs : List RealTerm} (heven : xs.length % 2 = 0) (s : State) :
    2 * (pushBlock xs s).2.length = xs.length := by
  induction xs, s using pushBlock.induct with
  | case1 s => rfl
  | case2 x s => exact absurd heven (by simp)
  | case3 a b xs s ih =>
    have hrest := ih (length_even_of_cons_cons heven)
    simp only [pushBlock, List.length_cons]
    omega

/-- A block after an even block: the second goes on from the state of the first (R108). -/
theorem pushBlock_append {xs : List RealTerm} (heven : xs.length % 2 = 0) (ys : List RealTerm) (s : State) :
    pushBlock (xs ++ ys) s =
      ((pushBlock ys (pushBlock xs s).1).1, (pushBlock xs s).2 ++ (pushBlock ys (pushBlock xs s).1).2) := by
  induction xs, s using pushBlock.induct with
  | case1 s => rfl
  | case2 x s => exact absurd heven (by simp)
  | case3 a b xs s ih => simp only [List.cons_append, pushBlock, ih (length_even_of_cons_cons heven)]

/-- ht.filter of an even block of finite samples (30_encoding.md R61). -/
theorem htFilter_even {xs : List RealTerm} (heven : xs.length % 2 = 0) (ts : Nat) (s : State) :
    htFilter (xs.map .finite) ts s = .next ((pushBlock xs s).1, ts, (pushBlock xs s).2) := by
  rw [htFilter, if_pos (by rwa [List.length_map]), pushSamples_even heven]
  rfl

/-- Settles O39: two even blocks are one block of pushes after the other. -/
theorem filterBlocksMaySplitAnywhereEven : Obligations.FilterBlocksMaySplitAnywhereEven := by
  constructor
  · intro s ts xs ys hxs hys
    have hboth : (xs ++ ys).length % 2 = 0 := by rw [List.length_append]; omega
    exact ⟨_, _, _, _, htFilter_even hxs ts s, htFilter_even hys ts _,
      by rw [htFilter_even hboth, pushBlock_append hxs]⟩
  · intro s ts xs hodd
    rw [htFilter, if_neg (by omega)]

/-! ### The closed form -/

theorem altSign_succ (m : Nat) : altSign (m + 1) = -altSign m := by
  unfold altSign
  rcases Nat.mod_two_eq_zero_or_one m with h | h
  · rw [if_neg (by omega), if_pos h]
  · rw [if_pos (by omega), if_neg (by omega), neg_neg]

theorem val_polarity_not (ρ : Nat → ℝ) (sign : Bool) : (polarity !sign).val ρ = -(polarity sign).val ρ := by
  cases sign <;> simp [val_polarity]

theorem sampleAt_natCast (ρ : Nat → ℝ) (xs : List RealTerm) (n : Nat) :
    sampleAt ρ xs n = (xs.getD n (.rat 0)).val ρ := by
  simp [sampleAt]

theorem sampleAt_of_neg (ρ : Nat → ℝ) (xs : List RealTerm) {u : Int} (hu : u < 0) : sampleAt ρ xs u = 0 :=
  if_neg (by omega)

/-- The delay line and the polarity after `m` pairs of the samples `xs` that entered since HT.RESET: tap `j` is the
sample `j` places before the newest one, and the polarity of the next output is `(-1)^m` (R105, R106). -/
structure WindowAt (ρ : Nat → ℝ) (xs : List RealTerm) (m : Nat) (h : Hilbert) : Prop where
  tap : ∀ j ≤ 46, (h.tap j).val ρ = sampleAt ρ xs (2 * m - 1 - j)
  sign : (polarity h.sign).val ρ = altSign m

/-- The output pair `m` of the closed form (R107). -/
def ClosedForm (ρ : Nat → ℝ) (p : Params) (xs : List RealTerm) (m : Nat) (out : RealTerm × RealTerm) : Prop :=
  out.1.val ρ = altSign m * sampleAt ρ xs (2 * m - 22) ∧
    out.2.val ρ = altSign m *
      ∑ k ∈ Finset.range 24, (quadCoeff p k).val ρ * sampleAt ρ xs (2 * m + 1 - 2 * k)

section window
variable {ρ : Nat → ℝ} {xs : List RealTerm} {m : Nat}

/-- Before any pair every tap and every earlier sample is 0. -/
theorem windowAt_hilbertReset (s : State) : WindowAt ρ xs 0 (hilbertReset s).ht where
  tap j _ := by rw [hilbertReset_tap, sampleAt_of_neg ρ xs (by omega)]; simp
  sign := by simp [val_polarity, altSign]

variable {a b : RealTerm} {rest : List RealTerm}

/-- The next two samples of the input, where `a`, `b` are the next pair. -/
theorem sampleAt_next_pair (hnext : xs.drop (2 * m) = a :: b :: rest) :
    sampleAt ρ xs (2 * m) = a.val ρ ∧ sampleAt ρ xs (2 * m + 1) = b.val ρ := by
  have hget : ∀ i, xs[2 * m + i]? = (a :: b :: rest)[i]? := fun i => by rw [← hnext, List.getElem?_drop]
  have ha : xs[2 * m]? = some a := hget 0
  have hb : xs[2 * m + 1]? = some b := hget 1
  constructor
  · simpa [ha] using sampleAt_natCast ρ xs (2 * m)
  · simpa [hb] using sampleAt_natCast ρ xs (2 * m + 1)

/-- HT.PUSH of the next pair moves the window by two samples (R106). -/
theorem WindowAt.pushPair {h : Hilbert} (hwindow : WindowAt ρ xs m h) (hnext : xs.drop (2 * m) = a :: b :: rest) :
    WindowAt ρ xs (m + 1) (pushPair a b h) where
  tap j hj := by
    obtain ⟨ha, hb⟩ := sampleAt_next_pair (ρ := ρ) hnext
    match j with
    | 0 => rw [pushPair_tap_zero, ← hb]; congr 1; omega
    | 1 => rw [pushPair_tap_one, ← ha]; congr 1; omega
    | j + 2 => rw [pushPair_tap_add_two a b h hj, hwindow.tap j (by omega)]; congr 1; omega
  sign := by rw [pushPair_sign, val_polarity_not, hwindow.sign, altSign_succ]

/-- The output of HT.PUSH of the next pair is that of the closed form (R107). -/
theorem WindowAt.closedForm {s : State} (hwindow : WindowAt ρ xs m s.ht)
    (hnext : xs.drop (2 * m) = a :: b :: rest) : ClosedForm ρ s.params xs m (pushed a b s).outputPair := by
  obtain ⟨hinphase, hquadrature⟩ := val_pushResponse ρ s.params a b s.ht
  have hafter := hwindow.pushPair hnext
  rw [← val_polarity, hwindow.sign] at hinphase hquadrature
  constructor
  · refine hinphase.trans (congrArg _ ((hafter.tap 23 (by omega)).trans ?_))
    congr 1; omega
  · refine hquadrature.trans (congrArg _ (Finset.sum_congr rfl fun k hk => ?_))
    rw [hafter.tap (2 * k) (by have := Finset.mem_range.1 hk; omega)]
    congr 2; omega

end window

/-- The outputs of a block that begins after `m` pairs, its samples the input's from there on (R107). -/
theorem pushBlock_closedForm {ρ : Nat → ℝ} {xs ys : List RealTerm} {s : State} {m : Nat}
    (hwindow : WindowAt ρ xs m s.ht) (hrest : xs.drop (2 * m) = ys) (i : Nat)
    (hi : i < (pushBlock ys s).2.length) : ClosedForm ρ s.params xs (m + i) (pushBlock ys s).2[i] := by
  induction ys, s using pushBlock.induct generalizing m i with
  | case1 s => exact absurd hi (Nat.not_lt_zero i)
  | case2 x s => exact absurd hi (Nat.not_lt_zero i)
  | case3 a b ys s ih =>
    cases i with
    | zero => exact hwindow.closedForm hrest
    | succ i =>
      have hlater : xs.drop (2 * (m + 1)) = ys := by
        rw [Nat.mul_add, ← List.drop_drop, hrest]; rfl
      rw [show m + (i + 1) = m + 1 + i by omega]
      exact ih (hwindow.pushPair hrest) hlater i (Nat.lt_of_succ_lt_succ hi)

/-- Settles O38: the window HT.RESET leaves is that of 0 pairs, and the block of pushes follows from there. -/
theorem filterOutputsHaveTheClosedForm : Obligations.FilterOutputsHaveTheClosedForm := by
  intro ρ s xs heven
  have hwindow : WindowAt ρ xs 0 ((hilbertReset s).respond {}).ht := windowAt_hilbertReset s
  refine ⟨_, _, _, exec_htReset s, pushSamples_even heven _, pushBlock_length heven _, fun m hm => ?_⟩
  simpa [ClosedForm] using pushBlock_closedForm hwindow List.drop_zero m hm

end Sys2Proof.Machine
end

section
/-!
The Golay(24) decoder (43_golay24.md R119 to R125): the words of syndrome 0 are the codewords, so two light error
patterns with one syndrome are the same pattern, and what the decoder answers follows from that.
-/

namespace Sys2Proof.Machine

/-! ### The syndrome -/

/-- A codeword is a word whose second half is the parity of its first (R119). -/
theorem eq_golayEncode_iff (p : Params) (r : Word24) (info : BitVec 12) :
    r = golayEncode p info ↔ slice r 0 12 = info ∧ slice r 12 12 = golayParity p info := by
  constructor
  · rintro rfl
    constructor <;> refine eq_of_bit fun i hi => ?_ <;> simp [bit_golayEncode, hi]
  · rintro ⟨hinfo, hparity⟩
    refine eq_of_bit fun i hi => ?_
    rw [bit_golayEncode, ← hparity, ← hinfo]
    split
    · next hlow => simp [hlow]
    · next hhigh => simp [show i - 12 < 12 by omega, show 12 + (i - 12) = i by omega]

/-- The syndrome is 0 exactly on the codewords (R119, R121). -/
theorem golaySyndrome_eq_zero_iff (p : Params) (r : Word24) :
    golaySyndrome p r = 0 ↔ ∃ info, r = golayEncode p info := by
  simp only [golaySyndrome, eq_golayEncode_iff, ↓existsAndEq, true_and]
  exact BitVec.xor_eq_zero_iff.trans eq_comm

@[simp] theorem golaySyndrome_golayEncode (p : Params) (info : BitVec 12) :
    golaySyndrome p (golayEncode p info) = 0 :=
  (golaySyndrome_eq_zero_iff p _).2 ⟨info, rfl⟩

/-- The syndrome of a codeword with an error is the error's (R121). -/
@[simp] theorem golaySyndrome_golayEncode_xor (p : Params) (info : BitVec 12) (e : Word24) :
    golaySyndrome p (golayEncode p info ^^^ e) = golaySyndrome p e := by
  rw [golaySyndrome_xor, golaySyndrome_golayEncode]
  exact BitVec.zero_xor

/-- Settles O41: the codewords are the words of syndrome 0, and the syndrome is linear. -/
theorem syndromeDependsOnTheErrorAlone : Obligations.SyndromeDependsOnTheErrorAlone := fun p =>
  ⟨golaySyndrome_eq_zero_iff p, golaySyndrome_golayEncode_xor p⟩

/-! ### GL.DEC -/

/-- Settles O40: GL.DEC answers what the decoder does, in one of the three cases of R124. -/
theorem glDecChecksAndCorrects : Obligations.GlDecChecksAndCorrects := by
  intro s
  refine ⟨_, _, exec_decoder (i := .glDec) (by decide) s, ?_⟩
  rcases golayDecode_cases s.params s.ports.w24 with
    ⟨hclean, hdecode⟩ | ⟨hdirty, e, hlow, hhigh, hsame, hdecode⟩ | ⟨hdirty, hnone, hdecode⟩ <;> rw [hdecode]
  · exact ⟨fun _ => ⟨rfl, rfl⟩, fun hdirty => absurd hclean hdirty, fun hdirty => absurd hclean hdirty⟩
  · exact ⟨fun hclean => absurd hclean hdirty, fun _ _ => ⟨e, hlow, hhigh, hsame, rfl, rfl⟩,
      fun _ hnone => absurd ⟨e, hlow, hhigh, hsame⟩ hnone⟩
  · exact ⟨fun hclean => absurd hclean hdirty, fun _ ⟨e, hlow, hhigh, hsame⟩ => absurd hsame (hnone e hlow hhigh),
      fun _ _ => ⟨rfl, rfl⟩⟩

/-! ### Errors of a codeword -/

@[simp] theorem golayEncode_zero (p : Params) : golayEncode p 0 = 0 := by
  have hparity : golayParity p 0 = 0 := by rw [golayParity, bitsOf_zero, gf2Mul_false]
  rw [golayEncode, hparity]
  rfl

section distance
variable {p : Params} {d : Nat} (hdistance : ∀ info : BitVec 12, info ≠ 0 → d ≤ wt (golayEncode p info))
include hdistance

/-- Two error patterns with one syndrome, together lighter than the minimum distance, are the same pattern: their sum
is a codeword. -/
theorem eq_of_golaySyndrome_eq {e e' : Word24} (hsame : golaySyndrome p e = golaySyndrome p e')
    (hlight : wt e + wt e' < d) : e = e' := by
  have hsum : golaySyndrome p (e ^^^ e') = 0 := by rw [golaySyndrome_xor, hsame, BitVec.xor_self]; rfl
  obtain ⟨info, hcodeword⟩ := (golaySyndrome_eq_zero_iff p _).1 hsum
  by_cases hzero : info = 0
  · rw [hzero, golayEncode_zero] at hcodeword
    exact BitVec.xor_eq_zero_iff.1 hcodeword
  · have hheavy := hdistance info hzero
    have hsub := wt_xor_le e e'
    rw [hcodeword] at hsub
    omega

/-- An error lighter than the minimum distance is seen (R125). -/
theorem golaySyndrome_ne_zero {e : Word24} (herror : 1 ≤ wt e) (hlight : wt e < d) : golaySyndrome p e ≠ 0 := by
  intro hclean
  have he : e = 0#24 := eq_of_golaySyndrome_eq hdistance (by rw [hclean, golaySyndrome_zero]; rfl) (by simpa)
  rw [he, wt_zero] at herror
  omega

/-- An error up to the radius is removed, as the pattern found is the error itself (R125). -/
theorem golayDecode_corrects (info : BitVec 12) {e : Word24} (herror : 1 ≤ wt e) (hradius : wt e ≤ p.golayRadius)
    (hd : 2 * p.golayRadius < d) :
    golayDecode p (golayEncode p info ^^^ e) = (golayEncode p info, fecCorrected) := by
  have hdirty := golaySyndrome_ne_zero hdistance herror (by omega)
  rcases golayDecode_cases p (golayEncode p info ^^^ e) with
    ⟨hclean, -⟩ | ⟨-, e', -, hhigh, hsame, hdecode⟩ | ⟨-, hnone, -⟩
  · exact absurd (by simpa using hclean) hdirty
  · have he : e' = e := eq_of_golaySyndrome_eq hdistance (by simpa using hsame) (by omega)
    rw [hdecode, he, BitVec.xor_assoc, BitVec.xor_self, BitVec.xor_zero]
  · exact absurd (by simp) (hnone e herror hradius)

/-- An error beyond the radius and up to `d - 1 - radius` is marked, as no pattern up to the radius has its syndrome
(R125). -/
theorem golayDecode_detects (info : BitVec 12) {e : Word24} (hbeyond : p.golayRadius < wt e)
    (hd : wt e + 1 + p.golayRadius ≤ d) :
    golayDecode p (golayEncode p info ^^^ e) = (golayEncode p info ^^^ e, fecUncorrectable) := by
  have hdirty := golaySyndrome_ne_zero hdistance (e := e) (by omega) (by omega)
  rcases golayDecode_cases p (golayEncode p info ^^^ e) with
    ⟨hclean, -⟩ | ⟨-, e', -, hhigh, hsame, -⟩ | ⟨-, -, hdecode⟩
  · exact absurd (by simpa using hclean) hdirty
  · have he : e' = e := eq_of_golaySyndrome_eq hdistance (by simpa using hsame) (by omega)
    rw [he] at hhigh
    omega
  · exact hdecode

end distance

/-- A codeword is left as it is (R124). -/
theorem golayDecode_golayEncode (p : Params) (info : BitVec 12) :
    golayDecode p (golayEncode p info) = (golayEncode p info, fecClean) :=
  if_pos (golaySyndrome_golayEncode p info)

/-- Settles O42: no error, an error up to the radius by the distance of R120, and an error beyond it by `d`. -/
theorem golayCorrectsUpToItsRadius : Obligations.GolayCorrectsUpToItsRadius := by
  rintro p d ⟨-, -, hvalid⟩ hdistance info e
  refine ⟨fun hzero => ?_, fun herror hradius => golayDecode_corrects hvalid info herror hradius (by omega),
    golayDecode_detects hdistance info⟩
  rw [wt_eq_zero.1 hzero]
  exact (congrArg _ BitVec.xor_zero).trans (golayDecode_golayEncode p info)

end Sys2Proof.Machine
end

section
/-!
The slot-type extractor (44_slot_type.md R132 to R140): the slot buffer bit by bit, the fields of ST.DEC as functions of
the Golay result, and from the errors of a codeword those of a burst.
-/

namespace Sys2Proof.Machine

/-! ### ST.EXT -/

/-- The slot buffer starts with four pads (R133). -/
theorem bit_slotBuffer_pad (p : Params) (b : Burst) {i : Nat} (hi : i < 4) : bit (slotBuffer p b) i = false := by
  simp [slotBuffer, hi]

/-- After the pads the slot buffer holds the slot-type bits in table order (R133, R134). -/
theorem bit_slotBuffer_slot (p : Params) (b : Burst) {k : Nat} (hk : k < 20) :
    bit (slotBuffer p b) (4 + k) = bit b p.slotTypeIndex[k].val := by
  simp [slotBuffer, hk, show 4 + k < 24 by omega]

/-- The slot buffer does not depend on the other burst bits (R133). -/
theorem slotBuffer_eq_of_sameSlotBits {p : Params} {b b' : Burst} (hsame : SameSlotBits p b b') :
    slotBuffer p b = slotBuffer p b' := by
  refine eq_of_bit fun i hi => ?_
  by_cases hpad : i < 4
  · rw [bit_slotBuffer_pad p b hpad, bit_slotBuffer_pad p b' hpad]
  · obtain ⟨k, rfl⟩ := Nat.exists_eq_add_of_le (Nat.le_of_not_lt hpad)
    have hk : k < 20 := by omega
    rw [bit_slotBuffer_slot p b hk, bit_slotBuffer_slot p b' hk]
    exact hsame _ (by simp)

/-- Settles O43: the answer is the slot buffer, which is known bit by bit. -/
theorem stExtGathersTheSlotBits : Obligations.StExtGathersTheSlotBits := by
  have hext : Instr.stExt ∈ decoderCommands := by decide
  refine ⟨fun s => ⟨_, exec_decoder hext s, fun i => bit_slotBuffer_pad _ _, fun k => bit_slotBuffer_slot _ _⟩,
    fun s b hsame => ⟨_, exec_decoder hext s, (exec_decoder hext _).trans ?_⟩⟩
  simp only [decoderResponse, slotBuffer_eq_of_sameSlotBits hsame]
  rfl

/-! ### ST.DEC -/

/-- An invalid status is not that of a corrected word (R137). -/
theorem ne_fecCorrected_of_invalid {fec : BitVec 2} (hinvalid : fecValid fec = false) : fec ≠ fecCorrected := by
  rintro rfl
  exact absurd hinvalid (by decide)

/-- The response of ST.DEC field by field (R135). -/
theorem slotResponse_eq (word : Word24) (fec : BitVec 2) :
    slotResponse word fec =
      { rw24 := word
        rfec := fec
        rvalid := fecValid fec
        rcc := slice word 4 4
        rdt := if fecValid fec then (slice word 8 4).zeroExtend 5 else dataTypeUnknown
        rcorr := fec = fecCorrected } := by
  unfold slotResponse
  split
  · next hvalid => simp [hvalid]
  · next hinvalid => simp [hinvalid, ne_fecCorrected_of_invalid (by simpa using hinvalid)]

/-- A vector extended by one place gets a first bit 0, and its own bits follow. -/
theorem bit_zeroExtend_succ {n : Nat} (v : BitVec n) :
    bit (v.zeroExtend (n + 1)) 0 = false ∧ ∀ i, bit (v.zeroExtend (n + 1)) (1 + i) = bit v i := by
  constructor
  · simp [bit]
  · intro i
    simp [bit, BitVec.getMsbD_setWidth, show 1 + i + n - (n + 1) = i by omega]

/-- ST.DEC answers with the fields of the Golay result on the slot buffer and changes no register (R135). -/
theorem exec_stDec (s : State) :
    exec .stDec s = .next (s.respond (slotResponse (golayDecode s.params (slotBuffer s.params s.ports.burst)).1
      (golayDecode s.params (slotBuffer s.params s.ports.burst)).2)) :=
  exec_decoder (by decide) s

/-- Settles O44: ST.EXT, GL.DEC and ST.DEC answer, and the fields of ST.DEC are those of `slotResponse_eq`. -/
theorem stDecReadsTheCorrectedFields : Obligations.StDecReadsTheCorrectedFields := by
  intro s
  refine ⟨_, _, _, _, exec_decoder (by decide) s, exec_decoder (by decide) _, rfl, exec_stDec s, ?_⟩
  rw [slotResponse_eq]
  refine ⟨rfl, decide_eq_true_iff, fun i hi => by simp [hi, decoderResponse], fun hvalid => ?_, fun hinvalid => ?_⟩
  · obtain ⟨htop, hcode⟩ := bit_zeroExtend_succ (slice (golayDecode s.params (slotBuffer s.params s.ports.burst)).1 8 4)
    simp only [if_pos hvalid]
    exact ⟨htop, fun i hi => by rw [hcode]; simp [hi, decoderResponse], decide_eq_true_iff⟩
  · exact ⟨if_neg (ne_true_of_eq_false hinvalid), decide_eq_false (ne_fecCorrected_of_invalid hinvalid)⟩

/-! ### Errors of a burst -/

/-- A codeword with an error up to the radius decodes to the codeword, with a valid status (R124, R125). -/
theorem golayDecode_within_radius {p : Params} (hvalid : p.GolayValid) (info : BitVec 12) {e : Word24}
    (hradius : wt e ≤ p.golayRadius) :
    ∃ fec, fecValid fec = true ∧ golayDecode p (golayEncode p info ^^^ e) = (golayEncode p info, fec) := by
  have ⟨_, _, hdistance⟩ := hvalid
  obtain ⟨hclean, hcorrected, -⟩ := golayCorrectsUpToItsRadius p _ hvalid hdistance info e
  by_cases herror : wt e = 0
  · exact ⟨0, rfl, hclean herror⟩
  · exact ⟨1, rfl, hcorrected (Nat.pos_of_ne_zero herror) hradius⟩

/-- Settles O45: the slot bits of the second burst are the codeword with an error, which the Golay decoder removes at
weight 1 and marks from 2 to `d - 2`. -/
theorem slotTypeErrorsAreCorrectedOrFlagged : Obligations.SlotTypeErrorsAreCorrectedOrFlagged := by
  intro s s' d info hvalid hradius hdistance hparams hcodeword
  refine ⟨_, _, exec_stDec s, exec_stDec s', ?_⟩
  rw [hparams, hcodeword, golayDecode_golayEncode]
  generalize herror : golayEncode s.params info ^^^ slotBuffer s.params s'.ports.burst = e
  have hreceived : slotBuffer s.params s'.ports.burst = golayEncode s.params info ^^^ e := by
    rw [← herror, ← BitVec.xor_assoc, BitVec.xor_self, BitVec.zero_xor]
  rw [hreceived]
  refine ⟨rfl, rfl, fun hlight => ?_, fun hbeyond hd => ?_⟩
  · obtain ⟨fec, hfec, hdecode⟩ := golayDecode_within_radius hvalid info (hradius ▸ hlight)
    rw [hdecode, slotResponse_eq, slotResponse_eq]
    exact ⟨hfec, rfl, if_pos hfec⟩
  · rw [golayDecode_detects hdistance info (by omega) (by omega)]
    exact ⟨rfl, rfl⟩

end Sys2Proof.Machine
end

section
/-!
The BPTC(196,96) decoder (45_bptc_196_96.md R143 to R156): which bits the extraction and the de-interleaving take, what
the repair of a line does, that one pass brings a codeword with one or two errors back, and the answer of BP.DEC.
-/

namespace Sys2Proof.Machine

/-! ### Weights -/

theorem xor_flipBit {n : Nat} (u v : BitVec n) (i : Nat) : u ^^^ flipBit v i = flipBit (u ^^^ v) i :=
  (BitVec.xor_assoc u v _).symm

/-- Inverting a 0 adds one to the weight. -/
theorem wt_flipBit {n : Nat} {v : BitVec n} {i : Nat} (hi : i < n) (hbit : bit v i = false) :
    wt (flipBit v i) = wt v + 1 := by
  have hinsert : ((Finset.range n).filter fun j => bit (flipBit v i) j = true) =
      insert i ((Finset.range n).filter fun j => bit v j = true) := by
    ext j
    simp only [Finset.mem_filter, Finset.mem_insert, Finset.mem_range, bit_flipBit]
    by_cases hj : j = i
    · simp [hj, hi, hbit]
    · simp [beq_eq_false_iff_ne.mpr hj, hj]
  rw [wt_eq_card, wt_eq_card, hinsert, Finset.card_insert_of_notMem (by simp [hbit])]

/-- A vector with a 0 is lighter than it is long. -/
theorem wt_lt {n : Nat} {v : BitVec n} {i : Nat} (hi : i < n) (hbit : bit v i = false) : wt v < n := by
  have hfull := wt_le (flipBit v i)
  rwa [wt_flipBit hi hbit] at hfull

/-- Two vectors that may differ at one place are equal, or one is the other with that place inverted. -/
theorem eq_or_eq_flipBit {n : Nat} {u v : BitVec n} {i : Nat} (hother : ∀ j < n, j ≠ i → bit u j = bit v j) :
    u = v ∨ u = flipBit v i := by
  by_cases hi : bit u i = bit v i
  · exact .inl (eq_of_bit fun j hj => if h : j = i then h ▸ hi else hother j hj h)
  · refine .inr (eq_of_bit fun j hj => ?_)
    rw [bit_flipBit]
    by_cases h : j = i
    · subst h
      simpa [hj] using Bool.eq_not.mpr hi
    · rw [hother j hj h, beq_eq_false_iff_ne.mpr h]
      simp

/-! ### BP.EXT and BP.DEINT -/

/-- Settles O46: the answer is the extraction, which is known bit by bit. -/
theorem bpExtTakesTheTwoRanges : Obligations.BpExtTakesTheTwoRanges := by
  intro s
  refine ⟨_, exec_decoder (i := .bpExt) (by decide) s, fun q hq => ?_, fun q hlow hq => ?_⟩
  · exact (bit_ofBits_of_lt (by omega)).trans (if_pos hq)
  · exact (bit_ofBits_of_lt hq).trans (if_neg (by omega))

/-- The extraction reads the payload bits alone (R143). -/
theorem bptcExtract_eq_of_samePayloadBits {b b' : Burst} (hsame : SamePayloadBits b b') :
    bptcExtract b = bptcExtract b' := by
  refine eq_of_bit fun q hq => ?_
  rw [bptcExtract, bptcExtract, bit_ofBits_of_lt hq, bit_ofBits_of_lt hq]
  split
  · exact hsame _ (by omega)
  · exact hsame _ (by omega)

/-- Settles O53: the three responses are functions of the extraction. -/
theorem payloadCommandsIgnoreOtherBurstBits : Obligations.PayloadCommandsIgnoreOtherBurstBits := by
  intro i hi s b hsame
  have hdecoder : i ∈ decoderCommands :=
    (by decide : ∀ i ∈ [Instr.bpExt, .bpDec, .trDec], i ∈ decoderCommands) i hi
  have hresponse : decoderResponse s.params { s.ports with burst := b } i = decoderResponse s.params s.ports i := by
    simp only [List.mem_cons, List.not_mem_nil, or_false] at hi
    rcases hi with rfl | rfl | rfl <;>
      simp only [decoderResponse, bptcResponse, trellisResponse, bptcExtract_eq_of_samePayloadBits hsame]
  refine ⟨_, exec_decoder hdecoder s, (exec_decoder hdecoder _).trans ?_⟩
  rw [hresponse]
  rfl

/-- One bit of the de-interleaved block (R145). -/
theorem bit_deinterleave (p : Params) (v : Block196) {i : Nat} (hi : i < 196) :
    bit (deinterleave p v) i = bit v p.bptcInterleave[i].val := by
  simp [deinterleave, hi]

/-- A permutation table lists every place once (00_scope.md R8). -/
theorem bptcInterleave_perm {p : Params} (hv : p.BptcInterleaveValid) :
    p.bptcInterleave.toList.Perm (List.finRange 196) :=
  (List.subperm_of_subset hv fun i _ => List.mem_finRange i).perm_of_length_le (by simp)

theorem bitsOf_deinterleave (p : Params) (v : Block196) :
    bitsOf (deinterleave p v) = p.bptcInterleave.toList.map fun i => bit v i.val := by
  refine List.ext_getElem (by simp) fun i hi _ => ?_
  rw [getElem_bitsOf, bit_deinterleave p v (by simpa using hi)]
  simp

/-- De-interleaving by a permutation keeps the number of ones (R146). -/
theorem wt_deinterleave {p : Params} (hv : p.BptcInterleaveValid) (v : Block196) : wt (deinterleave p v) = wt v := by
  have hbits : bitsOf v = (List.finRange 196).map fun i => bit v i.val := by
    simp [bitsOf, ← List.map_coe_finRange_eq_range, Function.comp_def]
  rw [wt, wt, bitsOf_deinterleave, hbits]
  exact ((bptcInterleave_perm hv).map _).count_eq true

/-- Settles O47: the answer is the de-interleaved block, known bit by bit. -/
theorem bpDeintPermutesTheBlock : Obligations.BpDeintPermutesTheBlock := fun s =>
  ⟨_, exec_decoder (i := .bpDeint) (by decide) s, fun _ hi => bit_deinterleave _ _ hi, fun hv => wt_deinterleave hv _⟩

/-! ### The repair of one line -/

theorem rowFix_of_clean {p : Params} {d : Block196} {r : Nat} (h : syndrome15 p (rowOf d r) = 0) :
    rowFix p d r = d := by
  simp only [rowFix, if_pos h]

theorem colFix_of_clean {p : Params} {d : Block196} {c : Nat} (h : syndrome13 p (colOf d c) = 0) :
    colFix p d c = d := by
  simp only [colFix, if_pos h]

/-- A row with the syndrome of bit `j` has its bit `j` inverted (R150). -/
theorem rowFix_of_unit {p : Params} (hv : p.RowCodeValid) {d : Block196} {r j : Nat} (hj : j < 15)
    (h : syndrome15 p (rowOf d r) = syndrome15 p (unitBit 15 j)) : rowFix p d r = flipBit d (cell r j) := by
  simp only [rowFix, h, if_neg (hv.1 j hj), rowPosition_unit hv hj]

/-- A column with the syndrome of bit `i` has its bit `i` inverted (R150). -/
theorem colFix_of_unit {p : Params} (hv : p.ColCodeValid) {d : Block196} {c i : Nat} (hi : i < 13)
    (h : syndrome13 p (colOf d c) = syndrome13 p (unitBit 13 i)) : colFix p d c = flipBit d (cell i c) := by
  simp only [colFix, h, if_neg (hv.1 i hi), colPosition_unit hv hi]

/-- A row whose syndrome names no position is left unchanged (R150). -/
theorem rowFix_of_unnamed {p : Params} {d : Block196} {r : Nat}
    (h : ∀ j < 15, syndrome15 p (rowOf d r) ≠ syndrome15 p (unitBit 15 j)) : rowFix p d r = d := by
  have hnone : rowPosition p (syndrome15 p (rowOf d r)) = none :=
    List.find?_eq_none.mpr fun j hj => by simpa using (h j (List.mem_range.mp hj)).symm
  simp only [rowFix, hnone, ite_self]

/-- A column whose syndrome names no position is left unchanged (R150). -/
theorem colFix_of_unnamed {p : Params} {d : Block196} {c : Nat}
    (h : ∀ i < 13, syndrome13 p (colOf d c) ≠ syndrome13 p (unitBit 13 i)) : colFix p d c = d := by
  have hnone : colPosition p (syndrome13 p (colOf d c)) = none :=
    List.find?_eq_none.mpr fun i hi => by simpa using (h i (List.mem_range.mp hi)).symm
  simp only [colFix, hnone, ite_self]

/-- Settles O48: the three cases of a syndrome, for a row and for a column. -/
theorem lineRepairFlipsTheNamedPosition : Obligations.LineRepairFlipsTheNamedPosition := fun _ _ =>
  ⟨fun _ _ => ⟨rowFix_of_clean, fun hv _ => rowFix_of_unit hv, rowFix_of_unnamed⟩,
    fun _ _ => ⟨colFix_of_clean, fun hv _ => colFix_of_unit hv, colFix_of_unnamed⟩⟩

/-! ### One pass over a block near a codeword -/

section pass
variable {p : Params} {word d : Block196}

/-- The row half of a pass gives the codeword where every row is repaired to the codeword's. -/
theorem foldl_rowFix_eq (hzero : bit d 0 = bit word 0) (hrows : ∀ r < 13, fixRow p (rowOf d r) = rowOf word r) :
    (List.range 13).foldl (rowFix p) d = word :=
  eq_of_rows ((foldl_bit_zero (rowFix_bit_zero p) _ d).trans hzero) fun r hr => by rw [rowOf_rows p d hr, hrows r hr]

/-- The column half of a pass gives the codeword where every column is repaired to the codeword's. -/
theorem foldl_colFix_eq (hzero : bit d 0 = bit word 0) (hcols : ∀ c < 15, fixCol p (colOf d c) = colOf word c) :
    (List.range 15).foldl (colFix p) d = word :=
  eq_of_cols ((foldl_bit_zero (colFix_bit_zero p) _ d).trans hzero) fun c hc => by rw [colOf_cols p d hc, hcols c hc]

variable (hword : bptcClean p word = true)
include hword

theorem syndrome15_word {r : Nat} (hr : r < 13) : syndrome15 p (rowOf word r) = 0 :=
  ((bptcClean_iff p word).mp hword).1 r hr

theorem syndrome13_word {c : Nat} (hc : c < 15) : syndrome13 p (colOf word c) = 0 :=
  ((bptcClean_iff p word).mp hword).2 c hc

theorem fixRow_word {r : Nat} (hr : r < 13) : fixRow p (rowOf word r) = rowOf word r :=
  fixRow_clean (syndrome15_word hword hr)

theorem fixCol_word {c : Nat} (hc : c < 15) : fixCol p (colOf word c) = colOf word c :=
  fixCol_clean (syndrome13_word hword hc)

/-- A pass gives the codeword where the repair of each row does (R151): the columns are then left. -/
theorem bptcPass_of_rows (hzero : bit d 0 = bit word 0) (hrows : ∀ r < 13, fixRow p (rowOf d r) = rowOf word r) :
    bptcPass p d = word := by
  rw [bptcPass, foldl_rowFix_eq hzero hrows]
  exact foldl_colFix_eq rfl fun _ => fixCol_word hword

/-- A pass leaves a codeword. -/
theorem bptcPass_word : bptcPass p word = word :=
  bptcPass_of_rows hword rfl fun _ => fixRow_word hword

/-- A pass gives the codeword where every row is the codeword's or one error from it. -/
theorem bptcPass_of_near_rows (hv : p.RowCodeValid) (hzero : bit d 0 = bit word 0)
    (hnear : ∀ r < 13, rowOf d r = rowOf word r ∨ ∃ c < 15, rowOf d r = flipBit (rowOf word r) c) :
    bptcPass p d = word := by
  refine bptcPass_of_rows hword hzero fun r hr => ?_
  rcases hnear r hr with hsame | ⟨c, hc, hflip⟩
  · rw [hsame, fixRow_word hword hr]
  · rw [hflip, fixRow_unit hv (syndrome15_word hword hr) hc]

/-- A pass gives the codeword where one row alone may differ from the codeword's: whatever its own repair leaves, every
column then has at most the error in that row. -/
theorem bptcPass_of_one_row (hv : p.ColCodeValid) (hzero : bit d 0 = bit word 0) {r : Nat} (hr : r < 13)
    (hother : ∀ q < 13, q ≠ r → rowOf d q = rowOf word q) : bptcPass p d = word := by
  refine foldl_colFix_eq ((foldl_bit_zero (rowFix_bit_zero p) _ d).trans hzero) fun c hc => ?_
  have hcell : ∀ q < 13, q ≠ r →
      bit (colOf ((List.range 13).foldl (rowFix p) d) c) q = bit (colOf word c) q := fun q hq hne => by
    rw [bit_colOf _ hq, bit_colOf _ hq, ← bit_rowOf _ hc, ← bit_rowOf _ hc, rowOf_rows p d hq, hother q hq hne,
      fixRow_word hword hq]
  rcases eq_or_eq_flipBit hcell with hsame | hflip
  · rw [hsame, fixCol_word hword hc]
  · rw [hflip, fixCol_unit hv (syndrome13_word hword hc) hr]

/-- Where a pass gives a codeword, so does any positive number of passes (R151). -/
theorem bptcPasses_of_pass (hpass : bptcPass p d = word) {n : Nat} (hn : 1 ≤ n) : bptcPasses p n d = word := by
  obtain ⟨n, rfl⟩ := Nat.exists_eq_add_of_le' hn
  rw [bptcPasses]
  split
  · next hclean => rw [← bptcPass_word hclean, hpass]
  · rw [hpass, bptcPasses_clean hword]

/-- Where a pass gives a codeword, the repair ends in it, with the number of its errors as count (R151). -/
theorem bptcRepair_of_pass (hpass : bptcPass p d = word) (hn : 1 ≤ p.bptcMaxPasses) :
    bptcRepair p d = (word, (wt (word ^^^ d) : Int)) := by
  simp only [bptcRepair, bptcPasses_of_pass hword hpass hn, if_pos hword]

end pass

/-! ### One and two errors of the encoder's block -/

section errors
variable {p : Params} {word : Block196} (hword : bptcClean p word = true) (hrow : p.RowCodeValid)
include hword hrow

/-- A pass repairs one error of a codeword, in its row. -/
theorem bptcPass_one_error {r c : Nat} (hr : r < 13) (hc : c < 15) : bptcPass p (flipBit word (cell r c)) = word := by
  refine bptcPass_of_near_rows hword hrow (bit_flip_cell_zero word r c) fun q _ => ?_
  rw [rowOf_flip word hr hc]
  split
  · next hq => exact .inr ⟨c, hc, hq ▸ rfl⟩
  · exact .inl rfl

/-- A pass repairs two errors of a codeword: each in its row, or, where the row is the same, each in its column. -/
theorem bptcPass_two_errors (hcol : p.ColCodeValid) {r c r' c' : Nat} (hr : r < 13) (hc : c < 15) (hr' : r' < 13)
    (hc' : c' < 15) : bptcPass p (flipBit (flipBit word (cell r c)) (cell r' c')) = word := by
  have hzero : bit (flipBit (flipBit word (cell r c)) (cell r' c')) 0 = bit word 0 := by
    rw [bit_flip_cell_zero, bit_flip_cell_zero]
  by_cases hsame : r' = r
  · subst hsame
    refine bptcPass_of_one_row hword hcol hzero hr fun q _ hq => ?_
    rw [rowOf_flip _ hr hc', if_neg hq, rowOf_flip _ hr hc, if_neg hq]
  · refine bptcPass_of_near_rows hword hrow hzero fun q _ => ?_
    rw [rowOf_flip _ hr' hc', rowOf_flip _ hr hc, rowOf_flip _ hr hc]
    by_cases hq' : q = r'
    · subst hq'
      exact .inr ⟨c', hc', by rw [if_pos rfl, if_neg hsame]⟩
    · by_cases hq : q = r
      · subst hq
        exact .inr ⟨c, hc, by rw [if_neg hq', if_pos rfl]⟩
      · exact .inl (by rw [if_neg hq', if_neg hq])

end errors

/-- Settles O51: the one pass repairs the error, and the count is the weight of one inverted bit. -/
theorem bptcRepairsOneError : Obligations.BptcRepairsOneError := by
  intro p m i hrow hn hlow hi
  obtain ⟨r, hr, c, hc, rfl⟩ := exists_cell hlow hi
  have hclean := encoded_clean p m
  have hcount : wt (bptcEncodedMatrix p m ^^^ flipBit (bptcEncodedMatrix p m) (cell r c)) = 1 := by
    rw [xor_flipBit, BitVec.xor_self, wt_flipBit hi (bit_zero _ _), wt_zero]
  rw [bptcRepair_of_pass hclean (bptcPass_one_error hclean hrow hr hc) hn, hcount]
  rfl

/-- Settles O52: the one pass repairs both errors, and the count is the weight of two inverted bits. -/
theorem bptcRepairsTwoErrors : Obligations.BptcRepairsTwoErrors := by
  intro p m i j hrow hcol hn hlow hij hj
  obtain ⟨r, hr, c, hc, rfl⟩ := exists_cell hlow (hij.trans hj)
  obtain ⟨r', hr', c', hc', rfl⟩ := exists_cell (hlow.trans hij.le) hj
  have hclean := encoded_clean p m
  have hcount : wt (bptcEncodedMatrix p m ^^^
      flipBit (flipBit (bptcEncodedMatrix p m) (cell r c)) (cell r' c')) = 2 := by
    rw [xor_flipBit, xor_flipBit, BitVec.xor_self, wt_flipBit hj (by simp [bit_flipBit, hij.ne']),
      wt_flipBit (hij.trans hj) (bit_zero _ _), wt_zero]
  rw [bptcRepair_of_pass hclean (bptcPass_two_errors hclean hrow hcol hr hc hr' hc') hn, hcount]
  rfl

/-! ### BP.DEC -/

theorem toInt_sext16 {n : Int} (hlow : -32768 ≤ n) (hhigh : n < 32768) : (sext16 n).toInt = n :=
  BitVec.toInt_ofInt_eq_self (by decide) hlow hhigh

theorem countValid_natCast (n : Nat) : countValid n = true := decide_eq_true (Int.natCast_nonneg n)

/-- The two counts a repair can answer (R151). -/
theorem bptcRepair_cases (p : Params) (d : Block196) :
    (bptcClean p (bptcRepair p d).1 = true ∧ (bptcRepair p d).2 = wt ((bptcRepair p d).1 ^^^ d)) ∨
      (bptcClean p (bptcRepair p d).1 = false ∧ (bptcRepair p d).2 = -1) := by
  cases h : bptcClean p (bptcRepair p d).1
  · exact .inr ⟨rfl, if_neg (ne_true_of_eq_false h)⟩
  · exact .inl ⟨rfl, if_pos h⟩

/-- A repair leaves bit 0, so it changes at most 195 bits (R152). -/
theorem wt_bptcRepair_le (p : Params) (d : Block196) : wt ((bptcRepair p d).1 ^^^ d) ≤ 195 := by
  have hzero : bit ((bptcRepair p d).1 ^^^ d) 0 = false := by
    rw [bit_xor, bptcRepair, bptcPasses_bit_zero, Bool.xor_self]
  exact Nat.le_of_lt_succ (wt_lt (by decide) hzero)

/-- Settles O49: the repair answers a codeword and its count, or -1. -/
theorem bpDecReturnsPayloadAndCount : Obligations.BpDecReturnsPayloadAndCount := by
  intro s
  refine ⟨_, _, _, _, exec_decoder (by decide) s, rfl, rfl, exec_decoder (by decide) s, rfl,
    fun k hk => bit_ofBits_of_lt hk, ?_⟩
  rw [← bptcClean_iff]
  simp only [decoderResponse, bptcResponse]
  generalize deinterleave s.params (bptcExtract s.ports.burst) = d
  have hbound := wt_bptcRepair_le s.params d
  have hzero : bit (bptcRepair s.params d).1 0 = bit d 0 := bptcPasses_bit_zero _ _ _
  rcases bptcRepair_cases s.params d with ⟨hclean, hcount⟩ | ⟨hdirty, hcount⟩
  · rw [hclean, hcount, countValid_natCast]
    exact ⟨Iff.rfl, fun _ => ⟨toInt_sext16 (by omega) (by omega), hbound⟩, nofun, hzero⟩
  · rw [hdirty, hcount]
    exact ⟨Iff.rfl, nofun, fun _ => rfl, hzero⟩

/-- The payload places of the encoder's block hold the payload (R153, R155). -/
theorem bptcPayload_encoded (p : Params) (m : BitVec 96) : bptcPayload (bptcEncodedMatrix p m) = m := by
  refine eq_of_bit fun k hk => ?_
  have hplace : 11 * ((k + 3) / 11) + (k + 3) % 11 = k + 3 := Nat.div_add_mod _ _
  rw [bptcPayload, bit_ofBits_of_lt hk, payloadCell, bit_encoded p m (by omega) (by omega), encodedCell,
    if_pos (by omega), encodedRow, if_pos (by omega), payloadAt, hplace, if_neg (by omega), Nat.add_sub_cancel]

/-- A block whose every syndrome is 0 is answered as it is, with count 0, after any number of passes (R156 (d)). -/
theorem bptcRepair_clean {p : Params} {word : Block196} (hword : bptcClean p word = true) :
    bptcRepair p word = (word, 0) := by
  simp only [bptcRepair, bptcPasses_clean hword, if_pos hword, BitVec.xor_self, wt_zero]
  rfl

/-- Settles O50: transport gives back the encoder's block, which the repair leaves. -/
theorem bptcRoundTripReturnsThePayload : Obligations.BptcRoundTripReturnsThePayload := by
  intro s m other hv hburst
  have hresponse : bptcResponse s.params s.ports.burst = { rp96 := m, rcount := 0, rvalid := true } := by
    rw [bptcResponse, hburst, bptcExtract_burstOf, deinterleave_bptcEncode hv, bptcRepair_clean (encoded_clean _ m)]
    simp only [bptcPayload_encoded]
    rfl
  exact (exec_decoder (i := .bpDec) (by decide) s).trans (by rw [decoderResponse, hresponse]; rfl)

end Sys2Proof.Machine
end

section
/-!
The rate-3/4 trellis decoder (46_trellis_3_4.md R162 to R171): the received points bit by bit, the search as a least
path over them, and the round trip with the encoder of R165.
-/

namespace Sys2Proof.Machine

/-! ### The received points -/

section points
variable {p : Params}

theorem bit_receivedPoint (v : Block196) {j i : Nat} (hi : i < 4) :
    bit (receivedPoint p v j) i = bit v (2 * dibitSource p (2 * j + i / 2) + i % 2) := bit_ofBits_of_lt hi

theorem getD_receivedPoints (v : Block196) {j : Nat} (hj : j < 49) :
    (receivedPoints p v).getD j 0 = receivedPoint p v j := by
  simp [receivedPoints, hj]

theorem length_receivedPoints (v : Block196) : (receivedPoints p v).length = 49 := by simp [receivedPoints]

variable (hperm : p.trellisInterleave.toList.Nodup)
include hperm

/-- The place of dibit `k` has dibit `k` as its source: the table is read backwards (R163). -/
theorem dibitSource_interleave {k : Nat} (hk : k < 98) : dibitSource p p.trellisInterleave[k].val = k :=
  findIdx_val hperm (by simpa using hk)

/-- A permutation table sends some dibit to every place (00_scope.md R8). -/
theorem exists_interleave_eq {pos : Nat} (hpos : pos < 98) :
    ∃ (k : Nat) (h : k < 98), p.trellisInterleave[k].val = pos := by
  have hall : p.trellisInterleave.toList.Perm (List.finRange 98) :=
    (List.subperm_of_subset hperm fun i _ => List.mem_finRange i).perm_of_length_le (by simp)
  obtain ⟨k, hk, hplace⟩ := List.getElem_of_mem (hall.mem_iff.mpr (List.mem_finRange ⟨pos, hpos⟩))
  exact ⟨k, by simpa using hk, congrArg Fin.val hplace⟩

/-- Bit `b` of received dibit `k`, found in the point at the dibit's place. -/
theorem bit_receivedPoint_interleave (v : Block196) {k b : Nat} (hk : k < 98) (hb : b < 2) :
    bit (receivedPoint p v (p.trellisInterleave[k].val / 2)) (2 * (p.trellisInterleave[k].val % 2) + b) =
      bit v (2 * k + b) := by
  have hsource := dibitSource_interleave hperm hk
  generalize p.trellisInterleave[k].val = pos at hsource ⊢
  have hplace : 2 * (pos / 2) + (2 * (pos % 2) + b) / 2 = pos := by omega
  have hbit : (2 * (pos % 2) + b) % 2 = b := by omega
  rw [bit_receivedPoint v (by omega), hplace, hsource, hbit]

end points

/-- Settles O55: the interleave table read backwards at a dibit's place gives the dibit. -/
theorem receivedPointsFollowTheInterleave : Obligations.ReceivedPointsFollowTheInterleave := by
  refine fun p v hperm => ⟨length_receivedPoints v, fun k hk b hb => ?_⟩
  have hplace : p.trellisInterleave[k].val < 98 := Fin.isLt _
  rw [getD_receivedPoints v (by omega), bit_receivedPoint_interleave hperm v hk hb]

/-! ### The search -/

section search
variable (p : Params) {rs : List (BitVec 4)} (hlength : rs.length = 49)
include hlength

/-- The payload is that of a path back to state 0 whose cost is the metric, and no such path costs less (R170). -/
theorem viterbi_least_path :
    ∃ ts, IsPath 49 0 ts ∧ (viterbi p rs).1 = tribitPayload ts ∧ pathCost p rs ts = (viterbi p rs).2 ∧
      ∀ ts', IsPath 49 0 ts' → (viterbi p rs).2 ≤ pathCost p rs ts' := by
  obtain ⟨hreached, hleast⟩ := searched_forward rs (searched_start p) rfl 0 (by decide)
  rw [List.nil_append, hlength] at hreached hleast
  obtain ⟨c, hmetric, -⟩ := hleast _ (isPath_dataTribits 0)
  have hc : (viterbi p rs).2 = c := by simp [viterbi, hmetric]
  obtain ⟨hpath, hcost⟩ := hreached c hmetric
  refine ⟨_, hpath, rfl, hcost.trans hc.symm, fun ts' hts' => ?_⟩
  obtain ⟨c', hmetric', hle⟩ := hleast ts' hts'
  obtain rfl : c = c' := by simpa [hmetric] using hmetric'
  rwa [hc]

/-- The metric is the distance to the encoding of the payload (R170). -/
theorem viterbi_metric : (viterbi p rs).2 = pathCost p rs (dataTribits (viterbi p rs).1) := by
  obtain ⟨ts, hpath, hpayload, hcost, -⟩ := viterbi_least_path p hlength
  rw [hpayload, dataTribits_tribitPayload hpath, hcost]

/-- No payload's encoding is nearer (R170). -/
theorem viterbi_metric_le (m : BitVec 144) : (viterbi p rs).2 ≤ pathCost p rs (dataTribits m) := by
  obtain ⟨-, -, -, -, hleast⟩ := viterbi_least_path p hlength
  exact hleast _ (isPath_dataTribits m)

/-- 49 points have 196 bits. -/
theorem viterbi_metric_le_bits : (viterbi p rs).2 ≤ 196 := by
  have hle := pointDistance_le rs (sentPatterns p 0 (dataTribits (viterbi p rs).1))
  rwa [hlength, ← pathCost, ← viterbi_metric p hlength] at hle

end search

/-- Settles O56: the search ends in a least path back to state 0, and every payload is such a path. -/
theorem viterbiReturnsTheNearestPayload : Obligations.ViterbiReturnsTheNearestPayload := fun p _ hlength =>
  ⟨viterbi_metric p hlength, viterbi_metric_le p hlength, viterbi_metric_le_bits p hlength⟩

/-! ### TR.DEC -/

/-- The failure test of R171, `none` being infinity. -/
theorem metricPasses_iff (p : Params) (metric : Nat) :
    metricPasses p metric = true ↔ ∀ bound, p.viterbiFailMetric = some bound → metric ≤ bound := by
  unfold metricPasses
  cases p.viterbiFailMetric <;> simp

/-- Settles O54: the metric fits the count, and where it fails the count is the sentinel. -/
theorem trDecReportsPayloadAndMetric : Obligations.TrDecReportsPayloadAndMetric := by
  intro s
  refine ⟨_, _, _, exec_decoder (by decide) s, exec_decoder (by decide) s, rfl, rfl, metricPasses_iff _ _, ?_⟩
  have hbound := viterbi_metric_le_bits s.params (length_receivedPoints (p := s.params) (bptcExtract s.ports.burst))
  simp only [decoderResponse, trellisResponse]
  split
  · next hpass => exact ⟨fun _ => toInt_sext16 (by omega) (by omega), fun hfail => absurd hpass (by simp [hfail])⟩
  · next hfail => exact ⟨fun hpass => absurd hpass hfail, fun _ => rfl⟩

/-! ### The encoder, received without errors -/

/-- Bit `b` of dibit `k` of the encoder's block is that of the pattern sent at the dibit's place (R165). -/
theorem bit_trellisEncode (p : Params) (m : BitVec 144) {k b : Nat} (hk : k < 98) (hb : b < 2) :
    bit (trellisEncode p m) (2 * k + b) =
      bit ((sentPatterns p 0 (dataTribits m)).getD (p.trellisInterleave[k].val / 2) 0)
        (2 * (p.trellisInterleave[k].val % 2) + b) := by
  have hdibit : (2 * k + b) / 2 = k := by omega
  have hbit : (2 * k + b) % 2 = b := by omega
  rw [trellisEncode, bit_ofBits_of_lt (by omega), hdibit, hbit, List.getD_eq_getElem _ _ (by simpa using hk),
    Vector.getElem_toList]

theorem length_sentPatterns_dataTribits (p : Params) (m : BitVec 144) :
    (sentPatterns p 0 (dataTribits m)).length = 49 := by
  rw [length_sentPatterns, length_dataTribits]

/-- The points received from the encoder's block are the patterns sent (R162 to R165). -/
theorem receivedPoints_trellisEncode {p : Params} (hperm : p.trellisInterleave.toList.Nodup) (m : BitVec 144) :
    receivedPoints p (trellisEncode p m) = sentPatterns p 0 (dataTribits m) := by
  have hsent := length_sentPatterns_dataTribits p m
  refine List.ext_getElem (by rw [length_receivedPoints, hsent]) fun j hj hj' => eq_of_bit fun i hi => ?_
  have hj49 : j < 49 := by rwa [hsent] at hj'
  obtain ⟨k, hk, hplace⟩ := exists_interleave_eq hperm (pos := 2 * j + i / 2) (by omega)
  have hpoint : p.trellisInterleave[k].val / 2 = j := by omega
  have hbit : 2 * (p.trellisInterleave[k].val % 2) + i % 2 = i := by omega
  have hdibit := (bit_receivedPoint_interleave hperm (trellisEncode p m) hk (Nat.mod_lt i two_pos)).trans
    (bit_trellisEncode p m hk (Nat.mod_lt i two_pos))
  rwa [hpoint, hbit, ← getD_receivedPoints _ hj49, List.getD_eq_getElem _ _ hj,
    List.getD_eq_getElem _ _ hj'] at hdibit

/-- Points at distance 0 from as many patterns are those patterns. -/
theorem eq_of_pointDistance_zero {rs qs : List (BitVec 4)} (hlength : rs.length = qs.length)
    (hzero : pointDistance rs qs = 0) : rs = qs := by
  induction rs generalizing qs with
  | nil => exact (List.length_eq_zero_iff.mp hlength.symm).symm
  | cons r rs ih =>
    cases qs with
    | nil => simp at hlength
    | cons q qs =>
      simp only [pointDistance, List.zipWith_cons_cons, List.sum_cons, Nat.add_eq_zero_iff] at hzero
      obtain ⟨hhead, htail⟩ := hzero
      rw [BitVec.xor_eq_zero_iff.mp (wt_eq_zero.mp hhead), ih (Nat.succ.inj hlength) htail]

theorem pointDistance_self (rs : List (BitVec 4)) : pointDistance rs rs = 0 := by
  simp [pointDistance]

/-! ### From the patterns back to the data -/

/-- The pattern of a branch, as an entry of the two tables (R164, R165). -/
theorem branchPattern_eq_getElem {p : Params} {s t : Nat} (hs : s < 8) (ht : t < 8) :
    branchPattern p s t = p.trellisPT.toList[(p.trellisEnc[s].toList[t]'(by simpa)).val]'(by simp) := by
  simp [branchPattern, hs, ht]

section separate
variable {p : Params} (htables : p.TrellisTablesValid) (hstates : p.TrellisStatesSeparate)
include htables hstates

/-- From a known state the pattern sent determines the tribit (R169). -/
theorem branchPattern_inj {s t u : Nat} (hs : s < 8) (ht : t < 8) (hu : u < 8)
    (heq : branchPattern p s t = branchPattern p s u) : t = u := by
  have hrow : p.trellisEnc[s].toList.Nodup := hstates ⟨s, hs⟩
  rw [branchPattern_eq_getElem hs ht, branchPattern_eq_getElem hs hu, List.Nodup.getElem_inj_iff htables.2, Fin.val_inj,
    List.Nodup.getElem_inj_iff hrow] at heq
  exact heq

/-- The patterns sent from a known state determine the tribits (R169). -/
theorem sentPatterns_inj {s : Nat} {ts us : List Nat} (hs : s < 8) (hts : ∀ x ∈ ts, x < 8) (hus : ∀ x ∈ us, x < 8)
    (heq : sentPatterns p s ts = sentPatterns p s us) : ts = us := by
  induction ts generalizing s us with
  | nil => cases us with
    | nil => rfl
    | cons u us => simp [sentPatterns] at heq
  | cons t ts ih => cases us with
    | nil => simp [sentPatterns] at heq
    | cons u us =>
      obtain ⟨ht, hts'⟩ := List.forall_mem_cons.mp hts
      obtain ⟨hu, hus'⟩ := List.forall_mem_cons.mp hus
      obtain ⟨hhead, htail⟩ := List.cons.inj heq
      obtain rfl := branchPattern_inj htables hstates hs ht hu hhead
      rw [ih ht hts' hus' htail]

end separate

/-- Data are determined by their tribits (R165). -/
theorem dataTribits_inj {m n : BitVec 144} (heq : dataTribits m = dataTribits n) : m = n := by
  refine eq_of_bit fun k hk => ?_
  have htribit : slice m (3 * (k / 3)) 3 = slice n (3 * (k / 3)) 3 :=
    BitVec.eq_of_toNat_eq (List.map_inj_left.mp (List.append_left_inj [0] |>.mp heq) _ (List.mem_range.mpr (by omega)))
  have hbit := congrArg (bit · (k % 3)) htribit
  simpa [Nat.mod_lt, Nat.div_add_mod] using hbit

theorem dataTribits_lt (m : BitVec 144) : ∀ t ∈ dataTribits m, t < 8 := by
  obtain ⟨-, hlt, -⟩ := isPath_dataTribits m
  exact hlt

/-- The patterns sent for data decode to the data with metric 0: the data themselves are at distance 0, so the payload
returned is too, and has the same patterns. -/
theorem viterbi_sentPatterns {p : Params} (htables : p.TrellisTablesValid) (hstates : p.TrellisStatesSeparate)
    (m : BitVec 144) : viterbi p (sentPatterns p 0 (dataTribits m)) = (m, 0) := by
  have hlength := length_sentPatterns_dataTribits p
  have hmetric : (viterbi p (sentPatterns p 0 (dataTribits m))).2 = 0 :=
    Nat.le_zero.mp ((viterbi_metric_le p (hlength m) m).trans (pointDistance_self _).le)
  have hsent := eq_of_pointDistance_zero ((hlength m).trans (hlength _).symm)
    ((viterbi_metric p (hlength m)).symm.trans hmetric)
  have htribits := sentPatterns_inj htables hstates (by decide) (dataTribits_lt m) (dataTribits_lt _) hsent
  exact Prod.ext (dataTribits_inj htribits).symm hmetric

/-- Settles O57: transport gives back the patterns sent, which the search decodes at metric 0. -/
theorem trellisRoundTripReturnsTheData : Obligations.TrellisRoundTripReturnsTheData := by
  intro s m other htables hstates hburst
  have hpass : metricPasses s.params 0 = true := (metricPasses_iff _ _).mpr fun _ _ => Nat.zero_le _
  have hresponse : trellisResponse s.params s.ports.burst = { rp144 := m, rcount := 0, rvalid := true } := by
    simp only [trellisResponse, hburst, bptcExtract_burstOf, receivedPoints_trellisEncode htables.1,
      viterbi_sentPatterns htables hstates, hpass]
    rfl
  exact (exec_decoder (i := .trDec) (by decide) s).trans (by rw [decoderResponse, hresponse]; rfl)

end Sys2Proof.Machine
end

section
/-!
Exceptions and completion (60_exceptions.md R173 to R177, R190): the step on each kind of input that runs no command,
and which commands complete with STATUS = 0.
-/

namespace Sys2Proof.Machine

/-! ### The step where no command runs -/

section step
variable {s : State} {rest : List HostInput}

theorem step_idle (hpending : s.pending = []) : step s = .next s := by
  simp only [step, hpending]

theorem step_resetInput (hpending : s.pending = .resetInput :: rest) : step s = .next (takeResetInput rest s) := by
  simp only [step, hpending]

theorem step_illegal {w : CmdWord} {ports : Ports} (hpending : s.pending = .command w ports :: rest)
    (hw : w ∉ legalWords) : step s = .next (reject w (s.present ports rest)) := by
  have hdecode : decode w = none := not_not.1 (mt (decode_ne_none_iff w).1 hw)
  simp only [step, hpending, hdecode]
end step

/-- The reset input is BLK.RESET but for the inputs and the response that are held (70_reset_and_hazards.md R191). -/
theorem takeResetInput_eq_blockReset (rest : List HostInput) (s : State) :
    takeResetInput rest s = { blockReset s with pending := rest, resp := none } := rfl

/-- Settles O5: an illegal word decodes to nothing, and the reject is the state the statement writes out. -/
theorem illegalWordIsRejectedPrecisely : Obligations.IllegalWordIsRejectedPrecisely := fun _ _ _ _ hpending hw =>
  step_illegal hpending hw

/-- Settles O6: with nothing pending the step is idle, and the reset input resets the block. -/
theorem idleHoldsAndResetInputResets : Obligations.IdleHoldsAndResetInputResets :=
  ⟨fun _ => step_idle,
    fun s rest hpending => ⟨_, (blockReset s).respond {}, step_resetInput hpending, rfl,
      takeResetInput_eq_blockReset rest s⟩⟩

/-- Settles O59: BLK.STAT is a status read of the error registers. -/
theorem blkStatReadsTheErrorRecord : Obligations.BlkStatReadsTheErrorRecord := exec_statusRead (by decide)

/-! ### The status of the responses that branch -/

theorem ferrResponse_status (m : RealTerm) (s : State) : (ferrResponse m s).status = false := by
  unfold ferrResponse
  split <;> rfl

theorem slotResponse_status (word : Word24) (fec : BitVec 2) : (slotResponse word fec).status = false := by
  unfold slotResponse
  split <;> rfl

theorem decoderResponse_status (p : Params) (ports : Ports) (i : Instr) :
    (decoderResponse p ports i).status = false := by
  cases i with
  | stDec => exact slotResponse_status _ _
  | _ => rfl

/-! ### Completion on finite operands -/

/-- `run` completes with STATUS = 0 where the operands it reads are `finite`, and is refused where they are not
(60_exceptions.md R173, 70_reset_and_hazards.md R193 (a)). -/
structure CompletesExactlyIf (finite : Bool) (run : Result) : Prop where
  completes : finite = true → ∃ t r, run = .next t ∧ t.resp = some r ∧ r.status = false
  refuses : finite = false → run = .refused .nonFiniteOperand

/-- A response with STATUS = 0 completes the command, whatever the operands. -/
theorem completesExactlyIf_respond {r : Response} (hr : r.status = false) (u : State) :
    CompletesExactlyIf true (.next (u.respond r)) where
  completes _ := ⟨u.respond r, r, rfl, rfl, hr⟩
  refuses h := absurd h.symm Bool.false_ne_true

/-- Reading one more REAL port asks that this port is finite too. -/
theorem CompletesExactlyIf.withReal {finite : Bool} {k : RealTerm → Result} (hk : ∀ x, CompletesExactlyIf finite (k x))
    (port : RealPort) : CompletesExactlyIf (port.isFinite && finite) (withReal port k) := by
  rcases withReal_cases port k with ⟨x, rfl, hrun⟩ | ⟨hport, hrun⟩
  · rw [hrun]
    exact hk x
  · rw [hrun, hport]
    exact ⟨fun h => absurd h Bool.false_ne_true, fun _ => rfl⟩

/-- A command that reads one REAL port and then responds. -/
theorem completesExactlyIf_withReal_respond {u : RealTerm → State} {r : RealTerm → Response}
    (hr : ∀ x, (r x).status = false) (port : RealPort) :
    CompletesExactlyIf port.isFinite (withReal port fun x => .next ((u x).respond (r x))) := by
  rw [← Bool.and_true port.isFinite]
  exact .withReal (fun x => completesExactlyIf_respond (hr x) (u x)) port

/-- Every command, by the REAL ports it reads. -/
theorem exec_completesExactlyIf (i : Instr) (s : State) : CompletesExactlyIf (i.wellFormed s.ports) (exec i s) := by
  cases i with
  | clAdj | clCorr => exact completesExactlyIf_withReal_respond (fun _ => rfl) s.ports.opa
  | pmFerr => exact completesExactlyIf_withReal_respond (fun m => ferrResponse_status m s) s.ports.opa
  | htPush =>
    exact .withReal (fun _ => completesExactlyIf_withReal_respond (fun _ => rfl) s.ports.opb) s.ports.opa
  | glDec | stExt | stDec | bpExt | bpDeint | bpDec | trDec =>
    rw [exec_decoder (by decide)]
    exact completesExactlyIf_respond (decoderResponse_status _ _ _) s
  | _ => exact completesExactlyIf_respond rfl _

/-- Settles O7: the two parts of completing exactly on finite operands. -/
theorem commandsCompleteExactlyOnFiniteOperands : Obligations.CommandsCompleteExactlyOnFiniteOperands := fun i s =>
  ⟨(exec_completesExactlyIf i s).completes, (exec_completesExactlyIf i s).refuses⟩

end Sys2Proof.Machine
end

section
/-!
The resets and the direct tracking (70_reset_and_hazards.md R191, R198): the unit resets commute and make up BLK.RESET,
and a tracking state set by CL.SETTRK meets a sync event.
-/

namespace Sys2Proof.Machine

/-! ### A sync event after CL.SETTRK -/

/-- PM.DET and PM.LOST are sync events (41_sync_monitor.md R98, R99). -/
theorem exec_syncEvent {i : Instr} (hi : i ∈ [Instr.pmDet, .pmLost]) :
    ∃ d, ∀ s, exec i s = .next ((countEvent d s).respond {}) := by
  simp only [List.mem_cons, List.not_mem_nil, or_false] at hi
  rcases hi with rfl | rfl
  · exact ⟨1, fun _ => rfl⟩
  · exact ⟨-2, fun _ => rfl⟩

/-- Settles O34: the sync event leaves the loop of CL.SETTRK as it is, or sets the tracking state of its new level over
it. -/
theorem amongSyncEventsDirectTrackingYieldsOnlyToALevelChange :
    Obligations.AmongSyncEventsDirectTrackingYieldsOnlyToALevelChange := by
  intro i hi s x
  obtain ⟨d, hexec⟩ := exec_syncEvent hi
  refine ⟨(setTracking x s).respond {}, (countEvent d ((setTracking x s).respond {})).respond {}, rfl, rfl, hexec _,
    fun hsame => ?_, fun hnew => ?_⟩
  · have hcl := countEvent_cl_of_level_eq d ((setTracking x s).respond {}) hsame
    exact ⟨congrArg (·.trk) hcl, hcl⟩
  · rw [respond_cl, countEvent_cl_of_level_ne d _ hnew]
    exact ⟨rfl, rfl, rfl⟩

/-! ### The unit resets and BLK.RESET -/

/-- The commands that reset one unit each (R191). -/
def unitResets : List Instr := [.clReset, .pmReset, .htReset]

/-- The state after a unit's reset command; of any other command it says nothing. -/
def resetUnit (s : State) : Instr → State
  | .clReset => (loopReset s).respond {}
  | .pmReset => (monitorReset s).respond {}
  | .htReset => (hilbertReset s).respond {}
  | _ => s

theorem exec_unitReset {i : Instr} (hi : i ∈ unitResets) (s : State) : exec i s = .next (resetUnit s i) := by
  simp only [unitResets, List.mem_cons, List.not_mem_nil, or_false] at hi
  rcases hi with rfl | rfl | rfl <;> rfl

/-- Two unit resets commute: CL.RESET and PM.RESET both write the tracking state and its gains, and write the same
(40_costas_loop.md R70, 41_sync_monitor.md R97); otherwise they write different registers. -/
theorem resetUnit_comm {i j : Instr} (hi : i ∈ unitResets) (hj : j ∈ unitResets) (s : State) :
    resetUnit (resetUnit s i) j = resetUnit (resetUnit s j) i := by
  simp only [unitResets, List.mem_cons, List.not_mem_nil, or_false] at hi hj
  rcases hi with rfl | rfl | rfl <;> rcases hj with rfl | rfl | rfl <;> rfl

/-- The unit resets leave the same state in any order. -/
theorem foldl_resetUnit_of_perm {is : List Instr} (hperm : is.Perm unitResets) (s : State) :
    is.foldl resetUnit s = unitResets.foldl resetUnit s :=
  hperm.foldl_eq' (fun _ hi _ hj => resetUnit_comm (hperm.mem_iff.mp hi) (hperm.mem_iff.mp hj)) s

/-- BLK.RESET leaves the state of the unit resets, with the error registers cleared. -/
theorem blockReset_eq_unitResets (s : State) : (blockReset s).respond {} =
    { unitResets.foldl resetUnit s with err := { flag := false, cause := 0, cmd := 0 } } := rfl

/-- Settles O58: the registers BLK.RESET leaves, and the three commands one after another as a fold over their order. -/
theorem blkResetResetsEveryUnit : Obligations.BlkResetResetsEveryUnit := by
  intro s
  refine ⟨(blockReset s).respond {}, rfl, rfl, rfl, rfl, rfl, rfl, fun x y z hperm => ?_⟩
  have hexec : ∀ i ∈ [x, y, z], ∀ u, exec i u = .next (resetUnit u i) := fun i hi =>
    exec_unitReset (hperm.mem_iff.mp hi)
  refine ⟨_, _, _, hexec x (by simp) s, hexec y (by simp) _, hexec z (by simp) _, ?_⟩
  rw [blockReset_eq_unitResets, ← foldl_resetUnit_of_perm hperm]
  rfl

end Sys2Proof.Machine
end
